-- ==== Sys2Proof/Word.lean ====
section
/-! DEFINITION. The word types of ZZFEC: the 32-bit word of the host bus and of the registers, the
16-bit LEN operand, the 85-bit frame, the 2-bit soft-symbol code, the 6-bit state index and the byte
of a byte-lane bus. -/

namespace Sys2Proof

/-- One 32-bit word of the register window, or one command word (R37, R54). -/
abbrev Word := BitVec 32

/-- One byte of a bus with byte lanes (R43). -/
abbrev Byte := BitVec 8

/-- The LEN operand of a command word (R55, R56). -/
abbrev Len := BitVec 16

/-- An 85-bit frame by stored index: bit `i` is FRAME[i] (R12, R20). -/
abbrev Frame := BitVec 85

/-- A soft-symbol code: 01 is +1, 11 is −1, 00 is 0, 10 is −2 (R14). -/
abbrev Symbol := BitVec 2

/-- A state index: bit 5 is r0, the most recent input bit, and bit 0 is r5 (R108). -/
abbrev StateIx := BitVec 6

end Sys2Proof
end

