-- ==== Sys2Proof/Syntax.lean ====
section
/-! DEFINITION. The ZZFEC command set, revision 1 (R3): one constructor per row of
spec/opcode_table.json, with the operand fields of the command word (R55, R56). The data operands are
fixed state (R17), so no constructor names a register. -/

namespace Sys2Proof

/-- A command of ZZFEC. -/
inductive Instr where
  /-- HAM_ENC (R86): LEN must be 77. -/
  | hamEnc (len : Len)
  /-- HAM_DEC (R91): LEN must be 85. -/
  | hamDec (len : Len)
  /-- CONV_ENC (R110): INV inverts the second output bit of every pair; LEN is N. -/
  | convEnc (inv : Bool) (len : Len)
  /-- VIT_DEC (R127): INV as the encoder's; STRICT accepts only a final metric of 0; LEN is N. -/
  | vitDec (inv : Bool) (strict : Bool) (len : Len)
deriving DecidableEq, Repr

/-- The LEN field of a command (R56). -/
def Instr.len : Instr → Len
  | .hamEnc len => len
  | .hamDec len => len
  | .convEnc _ len => len
  | .vitDec _ _ len => len

end Sys2Proof
end

