-- ==== Sys2Proof/Decode.lean ====
section
/-! DEFINITION. The command word (R54 to R61): its fields, the decoder, which is total and rejects by
name, the encoder, the length contract, the byte lanes of a 32-bit bus, and the reading of a row of
the opcode table. -/

namespace Sys2Proof

/-- A field placed with its lowest bit at bit `k` of an `n`-bit word, the rest 0. -/
def place {m : Nat} (n k : Nat) (v : BitVec m) : BitVec n := v.setWidth n <<< k

/-! ## Fields of a command word (R55, R56) -/

/-- OP, bits [3:0]. -/
def opField (w : Word) : BitVec 4 := w.extractLsb' 0 4

/-- INV, bit [4]. -/
def invField (w : Word) : Bool := w.getLsbD 4

/-- STRICT, bit [5]. -/
def strictField (w : Word) : Bool := w.getLsbD 5

/-- RSV, bits [15:6], which must be 0. -/
def rsvField (w : Word) : BitVec 10 := w.extractLsb' 6 10

/-- LEN, bits [31:16]. -/
def lenField (w : Word) : Len := w.extractLsb' 16 16

/-! ## Decoding -/

/-- Why a word is illegal (R60). Each of them is rejected with ILLEGAL_COMMAND (R61, R72). -/
inductive DecodeError where
  /-- OP is 0x0 or 0x5..0xF (R57). -/
  | reservedOp (op : BitVec 4)
  /-- A bit of RSV is set (R58). -/
  | reservedBits (rsv : BitVec 10)
  /-- INV = 1 on HAM_ENC or HAM_DEC (R58). -/
  | invNotAllowed
  /-- STRICT = 1 on HAM_ENC, HAM_DEC or CONV_ENC (R58). -/
  | strictNotAllowed
  /-- The bytes given are not the four bytes of one command word (R54). -/
  | notOneWord (bytes : Nat)
deriving DecidableEq, Repr

/-- The command `i`, if the flag INV of `w` is 0, as the rows of R58 that do not use it ask. -/
def needNoInv (w : Word) (r : Except DecodeError Instr) : Except DecodeError Instr :=
  if invField w then .error .invNotAllowed else r

/-- The command `i`, if the flag STRICT of `w` is 0, as the rows of R58 that do not use it ask. -/
def needNoStrict (w : Word) (r : Except DecodeError Instr) : Except DecodeError Instr :=
  if strictField w then .error .strictNotAllowed else r

/-- The command a 32-bit word stands for, by the rows of R57 and R58, or why it is illegal (R60).
The length contract is no part of legality (R59, R61). -/
def decode (w : Word) : Except DecodeError Instr :=
  if rsvField w ≠ 0#10 then .error (.reservedBits (rsvField w))
  else if opField w = 0x1#4 then needNoInv w (needNoStrict w (.ok (.hamEnc (lenField w))))
  else if opField w = 0x2#4 then needNoInv w (needNoStrict w (.ok (.hamDec (lenField w))))
  else if opField w = 0x3#4 then needNoStrict w (.ok (.convEnc (invField w) (lenField w)))
  else if opField w = 0x4#4 then .ok (.vitDec (invField w) (strictField w) (lenField w))
  else .error (.reservedOp (opField w))

/-! ## Encoding -/

/-- The word with the given fields and RSV = 0 (R55). -/
def commandWord (op : BitVec 4) (inv strict : Bool) (len : Len) : Word :=
  place 32 16 len ||| place 32 5 (BitVec.ofBool strict) ||| place 32 4 (BitVec.ofBool inv) |||
    place 32 0 op

/-- The word of a command (R57, R58, R79). -/
def encode : Instr → Word
  | .hamEnc len => commandWord 0x1 false false len
  | .hamDec len => commandWord 0x2 false false len
  | .convEnc inv len => commandWord 0x3 inv false len
  | .vitDec inv strict len => commandWord 0x4 inv strict len

/-! ## The length contract -/

/-- R59: the LEN of HAM_ENC is 77, that of HAM_DEC is 85, and that of CONV_ENC and VIT_DEC is at
least 1 and at most NMAX. -/
def lengthOk (nmax : Nat) : Instr → Bool
  | .hamEnc len => len.toNat == 77
  | .hamDec len => len.toNat == 85
  | .convEnc _ len => decide (1 ≤ len.toNat) && decide (len.toNat ≤ nmax)
  | .vitDec _ _ len => decide (1 ≤ len.toNat) && decide (len.toNat ≤ nmax)

/-! ## Byte lanes -/

/-- The four bytes of a word on a bus with byte lanes, lowest address first: byte `b` carries bits
[8b+7 : 8b] (R43). -/
def lanesOfWord (w : Word) : List Byte :=
  [w.extractLsb' 0 8, w.extractLsb' 8 8, w.extractLsb' 16 8, w.extractLsb' 24 8]

/-- The word that four byte lanes carry (R43). -/
def wordOfLanes (b0 b1 b2 b3 : Byte) : Word :=
  place 32 24 b3 ||| place 32 16 b2 ||| place 32 8 b1 ||| place 32 0 b0

/-- The decoder on any bytes: one CMD write holds exactly one command word of four bytes (R54). -/
def decodeBytes : List Byte → Except DecodeError Instr
  | [b0, b1, b2, b3] => decode (wordOfLanes b0 b1 b2 b3)
  | bs => .error (.notOneWord bs.length)

/-! ## The opcode table -/

/-- The low `nbits` bits of `w` as one command word, every bit above them 0. -/
def tableWord (nbits w : Nat) : Word := BitVec.ofNat 32 (w % 2 ^ nbits)

/-- The command the decoder reads from the bytes of a row of the opcode table. -/
def decodeTableWord (nbits w : Nat) : Option Instr :=
  (decodeBytes (lanesOfWord (tableWord nbits w))).toOption

end Sys2Proof
end

