-- ==== Sys2Proof/Config.lean ====
section
/-! DEFINITION. What an implementation of ZZFEC fixes (R9): the build parameters NMAX, ZZFEC_BASE and
CONDA_VARIANT as one record, the fixed parameters of this hardware, and the one free value of the
spec, the word a host reads from a buffer while a command is in flight (R155). -/

namespace Sys2Proof

/-- `CONDA_VARIANT` (R9, R10, R88): the second sub-case of Condition A asks for exactly one checksum
at 1 (`one`, the default), or for exactly six (`six`, the source's literal text). -/
inductive CondaVariant where
  | one
  | six
deriving DecidableEq, Repr

/-- The build parameters of one ZZFEC block (R9). They are fixed when the block is built: no step
changes them. -/
structure Config where
  /-- `NMAX`, the largest message length. -/
  nmax : Nat
  /-- `ZZFEC_BASE`, the byte address of the register window. -/
  base : Nat
  /-- `CONDA_VARIANT`. -/
  conda : CondaVariant
deriving DecidableEq, Repr

/-- The parameters R9 allows: 1 ≤ NMAX ≤ 16384, and a base that is a multiple of 0x4000. -/
abbrev Config.wf (c : Config) : Prop :=
  1 ≤ c.nmax ∧ c.nmax ≤ 16384 ∧ c.base % 0x4000 = 0

/-- The build that `State.reset` shows. DESIGN CHOICE (log 1, unsafe for statements about this one
build): NMAX at its upper bound and the window at address 0; CONDA_VARIANT at the spec's default.
Statements over all states hold for every build. -/
def Config.standard : Config := { nmax := 16384, base := 0, conda := .one }

/-- `FRAME_LEN` (R9). -/
abbrev frameLen : Nat := 85

/-- `DATA_LEN` (R9). -/
abbrev dataLen : Nat := 77

/-- `NSTATES` (R9). -/
abbrev numStates : Nat := 64

/-- The size of the register window in bytes (R36). -/
abbrev windowSize : Nat := 0x4000

/-- The free values of R155: the `n`-th word a host reads from a buffer while BUSY = 1, before its
reserved bits are cleared. It has no body, so nothing is known of it (log 9). -/
opaque Config.freeWord : Nat → BitVec 32

end Sys2Proof
end

