-- ==== Sys2Proof/Machine/State.lean ====
section
/-! DEFINITION. The state of ZZFEC: every item of R19, the model's own fields beside them, the reasons
a step can stop, and the state after reset (R152). -/

namespace Sys2Proof.Machine

/-- A buffer: its written elements as pairs of index and value, indices strictly rising. An element
that is not listed is one nothing has written since reset (R152, log 6). -/
abbrev Memory (α : Type) := List (Nat × α)

/-- The codes of STATUS.RESULT (R25, R135). Codes 8 to 15 are never written. -/
inductive ResultCode where
  | none
  | ok
  | valid
  | corrected
  | uncorrectable
  | noValidPath
  | invalidLength
  | illegalCommand
deriving DecidableEq, Repr

/-- CUR, the latch of the command in flight (R31). -/
structure Cur where
  op : BitVec 4
  inv : Bool
  strict : Bool
  len : Len
deriving DecidableEq, Repr

/-- One node of TRELLIS (R33): `pm` has a meaning only when `reach` holds, and `pred` only from
column 1 on. -/
structure Node where
  reach : Bool
  pm : Nat
  pred : StateIx
deriving DecidableEq, Repr

/-- The ChecksumVector (R34, R87): bit j−1 of `c` is the checksum c_j, so `c` is the number C. -/
structure Checksums where
  c : BitVec 7
  sigma : Bool
deriving DecidableEq, Repr

/-- One turn of an agent (R134, R152): an access of the host, the engine's turn, or the platform's
reset input. -/
inductive Input where
  /-- The host reads `width` bytes at a byte address (`MemRead`, R53). -/
  | read (addr width : Nat)
  /-- The host writes a value of `width` bytes at a byte address (`MemWrite`, R53). -/
  | write (addr width : Nat) (value : Word)
  /-- The engine takes its turn: it completes the command in flight, if there is one (R74). -/
  | engine
  /-- The platform resets the block (R152). -/
  | reset
deriving DecidableEq, Repr

/-- The two buffers with written flags (R152). -/
inductive Buffer where
  | msg
  | sym
deriving DecidableEq, Repr

/-- The model faults of R150. Each stops the run, so that a claim is about hosts that obey the spec. -/
inductive Fault where
  /-- A host write to FRAME0..2, the MSG window or the SYM window while BUSY = 1 (R154), at this
  offset. Raised by a host write; safe, since the spec gives it no hardware effect. -/
  | hostHazard (offset : Nat)
  /-- A read of this element of a buffer, which nothing has written since reset (R21, R22, R152).
  Raised by a host read, by CONV_ENC and by VIT_DEC; safe. -/
  | unwrittenRead (buffer : Buffer) (index : Nat)
deriving DecidableEq, Repr

/-- What the model has no step for. -/
inductive Refusal where
  /-- An instruction whose meaning is not written yet. Raised by an arm of `exec` only; safe. -/
  | notModelled (mnemonic : String)
  /-- A host access that is not 32 bits wide and aligned (R42). Raised by a host access; safe. -/
  | unsupportedAccess (addr width : Nat)
  /-- A host access outside the register window, which is not ZZFEC's (R36, log 10). Raised by a
  host access; safe. -/
  | outsideWindow (addr : Nat)
  /-- The engine's turn with a CUR that is no legal command word, while BUSY = 1. R71 latches legal
  words only, so no run reaches it (log 13). Raised by the engine's turn; safe. -/
  | curNotCommand
deriving DecidableEq, Repr

/-- The state of ZZFEC (R19), with the fields of the model's own at its end. -/
structure State where
  /-- The build parameters, which PARAM shows (R9, R29). No step changes them (R10). -/
  cfg : Config
  /-- FRAME by stored index (R20). -/
  frame : Frame
  /-- MSG, the elements 0..NMAX−1 that are written (R21). -/
  msg : Memory Bool
  /-- SYM, the elements 0..2·NMAX−1 that are written (R22). -/
  sym : Memory Symbol
  /-- STATUS.RESULT (R24, R25). -/
  result : ResultCode
  /-- STATUS.BUSY (R24). -/
  busy : Bool
  /-- STATUS.OVR (R24). -/
  ovr : Bool
  /-- HAM_SYN (R26). -/
  hamSyn : Word
  /-- VIT_INFO (R27). -/
  vitInfo : Word
  /-- CUR, hidden (R31). -/
  cur : Cur
  /-- SR, hidden: the shift register by state index (R32, R108). -/
  sr : StateIx
  /-- TRELLIS, hidden: its columns in order of time, each with its 64 nodes (R33). -/
  trellis : List (List Node)
  /-- CHK, hidden (R34). -/
  chk : Checksums
  /-- The model's own: the turns still to be taken, the next one first (log 2). -/
  inputs : List Input
  /-- The model's own: the value the last host read returned (log 8). -/
  readData : Word
  /-- The model's own: how many free values have been used (log 9). -/
  freeCount : Nat
deriving DecidableEq, Repr

/-- The state of a block with the given build parameters right after reset (R152). STATUS, HAM_SYN,
VIT_INFO and FRAME are 0 and no element of MSG or SYM is written. The hidden items, which R152 leaves
unspecified, are 0 or empty: DESIGN CHOICE (log 7, unsafe). -/
def State.resetFor (c : Config) : State where
  cfg := c
  frame := 0
  msg := []
  sym := []
  result := .none
  busy := false
  ovr := false
  hamSyn := 0
  vitInfo := 0
  cur := { op := 0, inv := false, strict := false, len := 0 }
  sr := 0
  trellis := []
  chk := { c := 0, sigma := false }
  inputs := []
  readData := 0
  freeCount := 0

/-- The state right after reset (R152) of the build `Config.standard` (log 1). -/
def State.reset : State := State.resetFor Config.standard

end Sys2Proof.Machine
end

