-- ==== Sys2Proof/Machine/Ops.lean ====
section
/-! DEFINITION. The operations every command shares: the buffers of elements with written flags, a
command's operand reads, and the updates of the control state that accept, reject, overrun and end a
command (R71 to R74) and that reset the block (R152). ZZFEC takes no exception and returns from none
(R141, R142): ending a command with a result code, `State.post`, is the only way it reports anything
(R135). -/

namespace Sys2Proof.Machine

/-! ## Buffers of elements -/

/-- The value of the element at an index, if something has written it since reset. -/
def Memory.read {α : Type} : Memory α → Nat → Option α
  | [], _ => none
  | (k, x) :: m, a => if k = a then some x else Memory.read m a

/-- The buffer after a write of one element, which sets its written flag (R152). -/
def Memory.write {α : Type} : Memory α → Nat → α → Memory α
  | [], a, v => [(a, v)]
  | (k, x) :: m, a, v =>
    if a < k then (a, v) :: (k, x) :: m
    else if a = k then (a, v) :: m
    else (k, x) :: Memory.write m a v

/-- The elements of the indices from `a` on, one for each value of a list. -/
def Memory.writeBlock {α : Type} (m : Memory α) (a : Nat) : List α → Memory α
  | [] => m
  | v :: vs => Memory.writeBlock (Memory.write m a v) (a + 1) vs

/-- The `n` elements from index `a` on, or the first index among them that is not written. -/
def Memory.readBlock {α : Type} (m : Memory α) (a : Nat) : Nat → Except Nat (List α)
  | 0 => .ok []
  | n + 1 =>
    match Memory.read m a with
    | none => .error a
    | some v =>
      match Memory.readBlock m (a + 1) n with
      | .error k => .error k
      | .ok vs => .ok (v :: vs)

/-- The canonical form of a buffer of `bound` elements: its indices strictly rise and are below the
bound. -/
abbrev Memory.wf {α : Type} (bound : Nat) (m : Memory α) : Prop :=
  (m.map Prod.fst).Pairwise (· < ·) ∧ ∀ cell ∈ m, cell.1 < bound

/-! ## The control state -/

/-- `post(code)` (R15): a command ends with a result code. -/
def State.post (code : ResultCode) (s : State) : State :=
  { s with result := code, busy := false }

/-- Reject a command with a code (R72): RESULT is the code, OVR is cleared, BUSY is 0 and no other
state changes. -/
def State.reject (code : ResultCode) (s : State) : State :=
  { s with result := code, busy := false, ovr := false }

/-- A CMD write while BUSY = 1 (R73): it sets OVR and changes nothing else. -/
def State.overrun (s : State) : State := { s with ovr := true }

/-- CUR as the fields of a command word (R31, R71). -/
def curOfWord (w : Word) : Cur :=
  { op := opField w, inv := invField w, strict := strictField w, len := lenField w }

/-- The command word whose fields CUR holds. -/
def Cur.word (c : Cur) : Word := commandWord c.op c.inv c.strict c.len

/-- Accept a command word (R71): CUR is latched, BUSY is set and OVR is cleared. -/
def State.accept (w : Word) (s : State) : State :=
  { s with cur := curOfWord w, busy := true, ovr := false }

/-- The reset input (R152): every item of R19 takes its reset value, whatever is in flight. The build
parameters, the turns still to come and the count of free values used are not the block's to reset
(log 14). -/
def State.resetInput (s : State) : State :=
  { State.resetFor s.cfg with inputs := s.inputs, freeCount := s.freeCount }

/-- A host read returns a value. -/
def State.answer (v : Word) (s : State) : State := { s with readData := v }

/-- A host read returns a free value (R155): the next one, with the bits outside the mask 0. -/
def State.answerFree (mask : Word) (s : State) : State :=
  { s with readData := Config.freeWord s.freeCount &&& mask, freeCount := s.freeCount + 1 }

/-! ## What every command does first -/

/-- Run a command if its LEN keeps the contract of R59. Otherwise it is rejected with INVALID_LENGTH
before any computation (R59, R72, R136). -/
def whenLengthOk (i : Instr) (s : State) (run : Host.Outcome State Fault Refusal) :
    Host.Outcome State Fault Refusal :=
  if lengthOk s.cfg.nmax i then run else .next (s.reject .invalidLength)

/-- Go on with the first `n` elements of MSG, or raise UnwrittenRead (R21). -/
def withMsg (n : Nat) (s : State) (run : List Bool → Host.Outcome State Fault Refusal) :
    Host.Outcome State Fault Refusal :=
  match Memory.readBlock s.msg 0 n with
  | .error k => .fault (.unwrittenRead .msg k)
  | .ok us => run us

/-- Go on with the first `n` elements of SYM, or raise UnwrittenRead (R22). -/
def withSym (n : Nat) (s : State) (run : List Symbol → Host.Outcome State Fault Refusal) :
    Host.Outcome State Fault Refusal :=
  match Memory.readBlock s.sym 0 n with
  | .error k => .fault (.unwrittenRead .sym k)
  | .ok xs => run xs

end Sys2Proof.Machine
end

