-- ==== Sys2Proof/Machine/Operands.lean ====
section
/-! DEFINITION. The forms operands take: soft symbols and hard bits (R14), bits of the frame by stored
index and by position (R12), and the packing of elements into the 32-bit words of the window (R38 to
R40). -/

namespace Sys2Proof.Machine

/-! ## Soft symbols (R14) -/

/-- `soft(b)`: a hard bit as a soft code, 1 to −1 and 0 to +1. -/
def soft (b : Bool) : Symbol := if b then 0b11 else 0b01

/-- `hard(x)`: a soft code as a hard bit, −1 to 1 and every other code to 0. -/
def hard (x : Symbol) : Bool := x == 0b11

/-! ## Bits of the frame (R12) -/

/-- FRAME[i], by stored index. -/
def frameBit (f : Frame) (i : Nat) : Bool := f.getLsbD i

/-- FRAMEP(P), by position: FRAME[85 − P]. -/
def frameAt (f : Frame) (p : Nat) : Bool := frameBit f (85 - p)

/-- The frame after `FRAME[i] <- b`. -/
def setFrameBit (f : Frame) (i : Nat) (b : Bool) : Frame :=
  if b then f ||| BitVec.twoPow 85 i else f &&& ~~~BitVec.twoPow 85 i

/-- The exclusive-or of a function over a list, 0 when the list is empty (R13). -/
def xorOver {α : Type} (xs : List α) (g : α → Bool) : Bool :=
  xs.foldr (fun x acc => Bool.xor (g x) acc) false

/-! ## Words of the window (R38 to R40) -/

/-- FRAME0, FRAME1 or FRAME2 as a host reads it: FRAME[32k..32k+31], the bits past FRAME[84] 0. -/
def frameWord (f : Frame) (k : Nat) : Word := f.extractLsb' (32 * k) 32

/-- The bits of FRAME that register FRAMEk holds. -/
def frameMask (k : Nat) : Frame := place 85 (32 * k) (BitVec.allOnes 32)

/-- FRAME after a host write of FRAMEk: exactly its bits are set, and what lies past FRAME[84] is
ignored (R38). -/
def writeFrameWord (f : Frame) (k : Nat) (v : Word) : Frame :=
  (f &&& ~~~frameMask k) ||| place 85 (32 * k) v

/-- How many elements word `w` of a window maps, where a word holds `per` and the buffer has `total`
(R39, R40). -/
def elementsIn (total per w : Nat) : Nat := min per (total - per * w)

/-- A word of bits, element index rising with bit number (R39). -/
def packBits : List Bool → Word
  | [] => 0
  | b :: bs => (packBits bs <<< 1) ||| place 32 0 (BitVec.ofBool b)

/-- The first `n` bits of a word (R39). -/
def unpackBits (n : Nat) (v : Word) : List Bool := (List.range n).map fun b => v.getLsbD b

/-- A word of 2-bit codes, element index rising with bit number (R40). -/
def packSymbols : List Symbol → Word
  | [] => 0
  | x :: xs => (packSymbols xs <<< 2) ||| place 32 0 x

/-- The first `n` codes of a word (R40). -/
def unpackSymbols (n : Nat) (v : Word) : List Symbol :=
  (List.range n).map fun f => v.extractLsb' (2 * f) 2

/-- A word whose lowest `n` bits are 1. -/
def lowOnes (n : Nat) : Word := BitVec.ofNat 32 (2 ^ n - 1)

end Sys2Proof.Machine
end

