-- ==== Sys2Proof/Machine/Convolutional.lean ====
section
/-! DEFINITION. The CONV unit (spec/41_convolutional.md): the shift register, the generators, and the
meaning of CONV_ENC. -/

namespace Sys2Proof.Machine

/-- The register bit r_k of a state index: s[5] is r0 and s[0] is r5 (R108). -/
def regBit (s : StateIx) (k : Nat) : Bool := s.getLsbD (5 - k)

/-- `next(s, u) = (u << 5) | (s >> 1)`: the input becomes r0 and the oldest bit is dropped (R106,
R108). -/
def nextState (s : StateIx) (u : Bool) : StateIx :=
  place 6 5 (BitVec.ofBool u) ||| s >>> 1

/-- Output bit 1: G1 selects r0, r1, r2 and r5, the input included (R107). -/
def gen1 (s : StateIx) (u : Bool) : Bool :=
  Bool.xor u (Bool.xor (regBit s 0) (Bool.xor (regBit s 1) (Bool.xor (regBit s 2) (regBit s 5))))

/-- Output bit 2: G2 selects r1, r2, r4 and r5, the input included; INV inverts it (R107). -/
def gen2 (s : StateIx) (u inv : Bool) : Bool :=
  Bool.xor inv
    (Bool.xor u (Bool.xor (regBit s 1) (Bool.xor (regBit s 2) (Bool.xor (regBit s 4) (regBit s 5)))))

/-- `gen(r, u, inv) = (o1, o2)` (R107). -/
def gen (s : StateIx) (u inv : Bool) : Bool × Bool := (gen1 s u, gen2 s u inv)

/-- The soft symbols of a message from a register value on, output bit 1 of each step first (R110,
R112), with the register value they end in. -/
def convolve (inv : Bool) (s : StateIx) : List Bool → List Symbol × StateIx
  | [] => ([], s)
  | u :: us =>
    let out := gen s u inv
    let rest := convolve inv (nextState s u) us
    (soft out.1 :: soft out.2 :: rest.1, rest.2)

/-- CONV_ENC (R110): SR starts at 0 (R111), the N bits MSG[0..N−1] become SYM[0..2N−1]. -/
def execConvEnc (inv : Bool) (len : Len) (s : State) : Host.Outcome State Fault Refusal :=
  whenLengthOk (.convEnc inv len) s <|
    withMsg len.toNat s fun us =>
      let r := convolve inv 0 us
      .next (State.post .ok { s with sym := Memory.writeBlock s.sym 0 r.1, sr := r.2 })

end Sys2Proof.Machine
end

