-- ==== Sys2Proof/Machine/Flags.lean ====
section
/-! DEFINITION. The status and report registers as words: STATUS with its flags and result code (R24,
R25, R30), PARAM (R29), and the words HAM_DEC and VIT_DEC report in (R26, R27). -/

namespace Sys2Proof.Machine

/-- The 4-bit value of a result code (R25). -/
def ResultCode.bits : ResultCode → BitVec 4
  | .none => 0
  | .ok => 1
  | .valid => 2
  | .corrected => 3
  | .uncorrectable => 4
  | .noValidPath => 5
  | .invalidLength => 6
  | .illegalCommand => 7

/-- STATUS as a host reads it: RESULT[3:0], BUSY[4], OVR[5], the rest 0 (R24). -/
def statusWord (s : State) : Word :=
  place 32 5 (BitVec.ofBool s.ovr) ||| place 32 4 (BitVec.ofBool s.busy) |||
    place 32 0 s.result.bits

/-- PARAM as a host reads it: NMAX[15:0], CONDA_SIX[16], the rest 0 (R29). -/
def paramWord (c : Config) : Word :=
  place 32 16 (BitVec.ofBool (c.conda == .six)) ||| place 32 0 (BitVec.ofNat 16 c.nmax)

/-- The word of HAM_SYN (R26, R94): SYN[6:0], CSIG[7], K[10:8], POS[23:16], the rest 0. -/
def hamSynWord (chk : Checksums) (k pos : Nat) : Word :=
  place 32 16 (BitVec.ofNat 8 pos) ||| place 32 8 (BitVec.ofNat 3 k) |||
    place 32 7 (BitVec.ofBool chk.sigma) ||| place 32 0 chk.c

/-- The word of VIT_INFO (R27, R128): FSTATE[5:0], FMETRIC[31:16], the rest 0. -/
def vitInfoWord (fstate : StateIx) (fmetric : Nat) : Word :=
  place 32 16 (BitVec.ofNat 16 fmetric) ||| place 32 0 fstate

end Sys2Proof.Machine
end

