-- ==== Sys2Proof/Machine/Hamming.lean ====
section
/-! DEFINITION. The HAM unit (spec/40_hamming.md): the index sets, the checksums, the conditions, and
the meanings of HAM_ENC and HAM_DEC. -/

namespace Sys2Proof.Machine

/-! ## Index sets (R83) -/

/-- The positions from `lo` to `hi`. -/
def span (lo hi : Nat) : List Nat := List.range' lo (hi + 1 - lo)

/-- S1, 41 positions. -/
def indexSet1 : List Nat :=
  [9, 10, 12, 13, 15, 17, 19, 20, 22, 24, 26, 28, 30, 32, 34, 35, 37, 39,
   41, 43, 45, 47, 49, 51, 53, 55, 57, 59, 61, 63, 65, 66, 68, 70, 72, 74,
   76, 78, 80, 82, 84]

/-- S2, 41 positions. -/
def indexSet2 : List Nat :=
  [9, 11, 12, 14, 15, 18, 19, 21, 22, 25, 26, 29, 30, 33, 34, 36, 37, 40,
   41, 44, 45, 48, 49, 52, 53, 56, 57, 60, 61, 64, 65, 67, 68, 71, 72, 75,
   76, 79, 80, 83, 84]

/-- S3, 40 positions. -/
def indexSet3 : List Nat :=
  [10, 11, 12, 16, 17, 18, 19, 23, 24, 25, 26, 31, 32, 33, 34, 38, 39, 40,
   41, 46, 47, 48, 49, 54, 55, 56, 57, 62, 63, 64, 65, 69, 70, 71, 72, 77,
   78, 79, 80, 85]

/-- S4, 39 positions. -/
def indexSet4 : List Nat := span 13 19 ++ span 27 34 ++ span 42 49 ++ span 58 65 ++ span 73 80

/-- S5, 36 positions. -/
def indexSet5 : List Nat := span 20 34 ++ span 50 65 ++ span 81 85

/-- S6, 31 positions. -/
def indexSet6 : List Nat := span 35 65

/-- S7, 20 positions. -/
def indexSet7 : List Nat := span 66 85

/-- The index set S_j, a set of positions (R83). -/
def indexSet : Nat → List Nat
  | 1 => indexSet1
  | 2 => indexSet2
  | 3 => indexSet3
  | 4 => indexSet4
  | 5 => indexSet5
  | 6 => indexSet6
  | 7 => indexSet7
  | _ => []

/-- The set parity `par_j(F)`: the exclusive-or of the bits at the positions of S_j (R85). -/
def setParity (j : Nat) (f : Frame) : Bool := xorOver (indexSet j) (frameAt f)

/-! ## HAM_ENC -/

/-- FRAME after HAM_ENC (R86): β7 down to β1 at the stored indices 77 to 83, then P0 at 84, the parity
of the 77 data bits and of β1..β7. -/
def encodeFrame (f : Frame) : Frame :=
  let withBetas := [7, 6, 5, 4, 3, 2, 1].foldl
    (fun g j => setFrameBit g (84 - j) (setParity j f)) f
  let p0 := Bool.xor (xorOver (List.range 77) (frameBit f))
    (xorOver (List.range' 1 7) fun j => setParity j f)
  setFrameBit withBetas 84 p0

/-- HAM_ENC (R86). -/
def execHamEnc (len : Len) (s : State) : Host.Outcome State Fault Refusal :=
  whenLengthOk (.hamEnc len) s <|
    .next (State.post .ok { s with frame := encodeFrame s.frame })

/-! ## Checksums and conditions -/

/-- The checksum c_j of a frame: its parity bit β_j and the set parity of S_j (R87). -/
def checksum (f : Frame) (j : Nat) : Bool := Bool.xor (frameBit f (84 - j)) (setParity j f)

/-- `checks(F)`: the seven checksums as the number C, and c_sigma, the exclusive-or of all 85 bits
(R87). -/
def checks (f : Frame) : Checksums where
  c := place 7 6 (BitVec.ofBool (checksum f 7)) ||| place 7 5 (BitVec.ofBool (checksum f 6)) |||
    place 7 4 (BitVec.ofBool (checksum f 5)) ||| place 7 3 (BitVec.ofBool (checksum f 4)) |||
    place 7 2 (BitVec.ofBool (checksum f 3)) ||| place 7 1 (BitVec.ofBool (checksum f 2)) |||
    place 7 0 (BitVec.ofBool (checksum f 1))
  sigma := xorOver (List.range 85) (frameBit f)

/-- The number of 1 bits of a syndrome (R13, R87). -/
def popcount (c : BitVec 7) : Nat := ((List.range 7).filter fun k => c.getLsbD k).length

/-- The 1-based index of the highest 1 bit among the lowest `n` bits, 0 if there is none. -/
def msbBelow (c : BitVec 7) : Nat → Nat
  | 0 => 0
  | n + 1 => if c.getLsbD n then n + 1 else msbBelow c n

/-- `msb(C)`, scanning from checksum 7 toward checksum 1 (R13, R90). -/
def msb (c : BitVec 7) : Nat := msbBelow c 7

/-- The number of checksums at 1 in the second case of Condition A (R88). -/
def condaWeight : CondaVariant → Nat
  | .one => 1
  | .six => 6

/-- Condition A, clean (R88). -/
def condA (v : CondaVariant) (k : Checksums) : Bool :=
  (k.c == 0 && !k.sigma) || (k.sigma && popcount k.c == condaWeight v)

/-- Condition C, uncorrectable (R89). -/
def condC (k : Checksums) : Bool :=
  (k.sigma && popcount k.c == 7) || (!k.sigma && decide (2 ≤ popcount k.c))

/-- Condition B, a single correctable error (R90). -/
def condB (k : Checksums) : Bool := k.sigma && decide (2 ≤ popcount k.c)

/-- The correction position of Condition B: POS = C + 8 − K (R90). -/
def correctionPos (c : BitVec 7) : Nat := c.toNat + 8 - msb c

/-- The frame with the bit at one stored index flipped (R92). -/
def flipFrameBit (f : Frame) (i : Nat) : Frame := setFrameBit f i (!frameBit f i)

/-! ## HAM_DEC -/

/-- What HAM_DEC leaves: the frame, the last checksums it computed, the K and POS it reports and the
result. -/
structure HamReport where
  frame : Frame
  chk : Checksums
  k : Nat
  pos : Nat
  code : ResultCode
deriving DecidableEq, Repr

/-- A result of HAM_DEC that changes no bit and reports no correction. -/
def hamUntouched (f : Frame) (code : ResultCode) : HamReport :=
  { frame := f, chk := checks f, k := 0, pos := 0, code := code }

/-- The Condition-B branch of HAM_DEC (R90, R92): beyond position 85 it gives up; otherwise it flips
one bit and computes the checksums afresh. -/
def hamCorrect (v : CondaVariant) (f : Frame) : HamReport :=
  let c := (checks f).c
  let pos := correctionPos c
  if 85 < pos then { hamUntouched f .uncorrectable with k := msb c, pos := pos }
  else
    let f' := flipFrameBit f (85 - pos)
    { frame := f', chk := checks f', k := msb c, pos := pos,
      code := if condA v (checks f') then .corrected else .uncorrectable }

/-- The decision of HAM_DEC (R91): Condition A, then C, then B, then the fallback (R93). -/
def hamDecide (v : CondaVariant) (f : Frame) : HamReport :=
  let k := checks f
  if condA v k then hamUntouched f .valid
  else if condC k then hamUntouched f .uncorrectable
  else if condB k then hamCorrect v f
  else hamUntouched f .uncorrectable

/-- HAM_DEC (R91): FRAME in place, HAM_SYN from the first evaluation (R94), CHK the last one (R34). -/
def execHamDec (len : Len) (s : State) : Host.Outcome State Fault Refusal :=
  whenLengthOk (.hamDec len) s <|
    let r := hamDecide s.cfg.conda s.frame
    .next (State.post r.code
      { s with frame := r.frame, hamSyn := hamSynWord (checks s.frame) r.k r.pos, chk := r.chk })

end Sys2Proof.Machine
end

