-- ==== Sys2Proof/Machine/Viterbi.lean ====
section
/-! DEFINITION. The VIT unit (spec/42_viterbi.md): the trellis, its relaxation, the final selection,
the traceback, and the meaning of VIT_DEC. -/

namespace Sys2Proof.Machine

/-- A node nothing has reached (R119). Its PM and PRED, which have no meaning (R33), are 0: DESIGN CHOICE
(log 15). -/
def unreached : Node := { reach := false, pm := 0, pred := 0 }

/-- Column 0: only state 0 is reachable, with metric 0 (R119). Its PRED, which has no meaning in column 0
(R33), is 0: DESIGN CHOICE (log 15). Traceback stops before it reads it (R126). -/
def columnZero : List Node := { reach := true, pm := 0, pred := 0 } :: List.replicate 63 unreached

/-- The node of a state in a column. -/
def nodeAt (col : List Node) (s : StateIx) : Node := col.getD s.toNat unreached

/-- The branch metric of an edge with the expected bits `e` against the received bits `h` (R120). -/
def branchMetric (e h : Bool × Bool) : Nat :=
  (Bool.xor e.1 h.1).toNat + (Bool.xor e.2 h.2).toNat

/-- Relax the edge from state `s` of column `col` with input `u`, in the column being built (R121):
the comparison is strict. -/
def relaxEdge (inv : Bool) (h : Bool × Bool) (col built : List Node) (s : StateIx) (u : Bool) :
    List Node :=
  let n := nextState s u
  let m := (nodeAt col s).pm + branchMetric (gen s u inv) h
  if (nodeAt built n).reach && decide ((nodeAt built n).pm ≤ m) then built
  else built.set n.toNat { reach := true, pm := m, pred := s }

/-- Relax both edges of a state, u = 0 before u = 1, if it is reachable (R121, R122). -/
def relaxState (inv : Bool) (h : Bool × Bool) (col built : List Node) (s : StateIx) : List Node :=
  if (nodeAt col s).reach then relaxEdge inv h col (relaxEdge inv h col built s false) s true
  else built

/-- The column after `col`: every state relaxed in ascending order into unreached nodes (R119, R122). -/
def nextColumn (inv : Bool) (h : Bool × Bool) (col : List Node) : List Node :=
  (List.range numStates).foldl (fun built k => relaxState inv h col built (BitVec.ofNat 6 k))
    (List.replicate numStates unreached)

/-- The columns of the trellis from a column on, one more for each pair of received hard bits. -/
def columnsFrom (inv : Bool) (col : List Node) : List (Bool × Bool) → List (List Node)
  | [] => [col]
  | h :: hs => col :: columnsFrom inv (nextColumn inv h col) hs

/-- The hard bits of the received symbols, a pair for each step (R118). -/
def hardPairs : List Symbol → List (Bool × Bool)
  | x :: y :: xs => (hard x, hard y) :: hardPairs xs
  | _ => []

/-- The trellis of the received symbols: columns 0 to N (R119). -/
def buildTrellis (inv : Bool) (xs : List Symbol) : List (List Node) :=
  columnsFrom inv columnZero (hardPairs xs)

/-- One comparison of the final selection: a reachable state replaces the best one so far only with a
smaller metric (R124). -/
def betterFinal (col : List Node) (best : Option StateIx) (s : StateIx) : Option StateIx :=
  if (nodeAt col s).reach then
    match best with
    | none => some s
    | some b => if (nodeAt col s).pm < (nodeAt col b).pm then some s else some b
  else best

/-- The reachable state of a column with the least metric, the lowest index on a tie (R124). -/
def selectFinal (col : List Node) : Option StateIx :=
  (List.range numStates).foldl (fun best k => betterFinal col best (BitVec.ofNat 6 k)) none

/-- Follow PRED from a state of the first column given, the columns running back in time to column 0:
the leading register bit of each state is the input bit that led to it (R126). -/
def traceback : List (List Node) → StateIx → List Bool → List Bool
  | col :: earlier :: cols, s, acc =>
    traceback (earlier :: cols) (nodeAt col s).pred (regBit s 0 :: acc)
  | _, _, acc => acc

/-- The message that ends in a state of a trellis's last column, first bit first (R126). -/
def decodedMessage (cols : List (List Node)) (s : StateIx) : List Bool :=
  traceback cols.reverse s []

/-- Column N, the last of the trellis. -/
def finalColumn (cols : List (List Node)) : List Node := cols.getLastD []

/-- How VIT_DEC ends once the trellis is built: select, report in VIT_INFO (R128), then fail with
NO_VALID_PATH under STRICT and a metric that is not 0 (R125), or write the message (R126). A final
column with no reachable state, which R129 shows cannot occur, ends in NO_VALID_PATH with VIT_INFO 0
(R25, R27, log 12). -/
def finishDecode (strict : Bool) (cols : List (List Node)) (s : State) : State :=
  let last := finalColumn cols
  match selectFinal last with
  | none => State.post .noValidPath { s with trellis := cols, vitInfo := 0 }
  | some b =>
    let fmetric := (nodeAt last b).pm
    let reported := { s with trellis := cols, vitInfo := vitInfoWord b fmetric }
    if strict && fmetric != 0 then State.post .noValidPath reported
    else State.post .ok
      { reported with msg := Memory.writeBlock s.msg 0 (decodedMessage cols b) }

/-- VIT_DEC (R127): the 2N symbols SYM[0..2N−1] are decoded into MSG[0..N−1]. -/
def execVitDec (inv strict : Bool) (len : Len) (s : State) : Host.Outcome State Fault Refusal :=
  whenLengthOk (.vitDec inv strict len) s <|
    withSym (2 * len.toNat) s fun xs =>
      .next (finishDecode strict (buildTrellis inv xs) s)

end Sys2Proof.Machine
end

