-- ==== Sys2Proof/Machine/Dispatch.lean ====
section
/-! DEFINITION. The meaning of each command (R57), one arm per constructor of Instr. -/

namespace Sys2Proof.Machine

def exec (i : Instr) (s : State) : Host.Outcome State Fault Refusal :=
  match i with
  | .hamEnc len => Sys2Proof.Machine.execHamEnc len s
  | .hamDec len => Sys2Proof.Machine.execHamDec len s
  | .convEnc inv len => Sys2Proof.Machine.execConvEnc inv len s
  | .vitDec inv strict len => Sys2Proof.Machine.execVitDec inv strict len s

end Sys2Proof.Machine
end

