-- ==== Sys2Proof/Machine/Engine.lean ====
section
/-! DEFINITION. The engine, the agent that completes the command in flight (R74, R134). ZZFEC fetches
no instructions (R18): the command it runs is the one CUR holds (R31). -/

namespace Sys2Proof.Machine

/-- The command in flight, read from CUR (R31). -/
def fetch (s : State) : Except DecodeError Instr := decode s.cur.word

/-- The engine's turn (R74): while BUSY = 1 it applies the meaning of the command in CUR. While
BUSY = 0 it has no step, and its turn passes (log 3). -/
def engineTurn (s : State) : Host.Outcome State Fault Refusal :=
  if s.busy then
    match fetch s with
    | .error _ => .refused .curNotCommand
    | .ok i => exec i s
  else .next s

end Sys2Proof.Machine
end

