-- ==== Sys2Proof/Machine/Window.lean ====
section
/-! DEFINITION. The host register window (spec/20_memory.md) and the issue of commands (R61, R71 to
R73): what a host read returns and what a host write does, at every offset. -/

namespace Sys2Proof.Machine

/-- What an offset of the window names (R37). -/
inductive Target where
  | cmd
  | status
  | hamSyn
  | vitInfo
  /-- FRAME0, FRAME1 or FRAME2. -/
  | frame (k : Nat)
  | param
  /-- Word `w` of the MSG window. -/
  | msg (w : Nat)
  /-- Word `w` of the SYM window. -/
  | sym (w : Nat)
  /-- A reserved offset, RAZ/WI (R41). -/
  | reserved
deriving DecidableEq, Repr

/-- The layout of the window (R37). -/
def targetAt (off : Nat) : Target :=
  if off = 0x000 then .cmd
  else if off = 0x004 then .status
  else if off = 0x008 then .hamSyn
  else if off = 0x00C then .vitInfo
  else if off = 0x010 then .frame 0
  else if off = 0x014 then .frame 1
  else if off = 0x018 then .frame 2
  else if off = 0x01C then .param
  else if 0x1000 ≤ off ∧ off < 0x1800 then .msg ((off - 0x1000) / 4)
  else if 0x2000 ≤ off ∧ off < 0x4000 then .sym ((off - 0x2000) / 4)
  else .reserved

/-- The offset a host access reaches: an aligned 32-bit access inside the window (R36, R42, R53). The
model has no step for any other access (log 10). -/
def locate (c : Config) (addr width : Nat) : Except Refusal Nat :=
  if width ≠ 4 ∨ addr % 4 ≠ 0 then .error (.unsupportedAccess addr width)
  else if addr < c.base ∨ c.base + windowSize ≤ addr then .error (.outsideWindow addr)
  else .ok (addr - c.base)

/-- The operand buffers, which a host may not write while BUSY = 1 (R154) and reads as free values
then (R155): FRAME0..2, the MSG window and the SYM window. -/
def Target.isBuffer : Target → Bool
  | .frame _ => true
  | .msg _ => true
  | .sym _ => true
  | _ => false

/-- The bits of a buffer's word that are not reserved (R38 to R41). -/
def dataMask (c : Config) : Target → Word
  | .frame 2 => lowOnes 21
  | .frame _ => lowOnes 32
  | .msg w => lowOnes (elementsIn c.nmax 32 w)
  | .sym w => lowOnes (2 * elementsIn (2 * c.nmax) 16 w)
  | _ => 0

/-- A word of the MSG window as a host reads it: it reads every element the word maps (R39, R152). -/
def readMsgWord (s : State) (w : Nat) : Except Fault Word :=
  match Memory.readBlock s.msg (32 * w) (elementsIn s.cfg.nmax 32 w) with
  | .error k => .error (.unwrittenRead .msg k)
  | .ok bs => .ok (packBits bs)

/-- A word of the SYM window as a host reads it (R40, R152). -/
def readSymWord (s : State) (w : Nat) : Except Fault Word :=
  match Memory.readBlock s.sym (16 * w) (elementsIn (2 * s.cfg.nmax) 16 w) with
  | .error k => .error (.unwrittenRead .sym k)
  | .ok xs => .ok (packSymbols xs)

/-- The value of a register or of a buffer's word (R23, R24, R26, R27, R29, R37 to R41). -/
def readTarget (s : State) : Target → Except Fault Word
  | .cmd => .ok 0
  | .status => .ok (statusWord s)
  | .hamSyn => .ok s.hamSyn
  | .vitInfo => .ok s.vitInfo
  | .frame k => .ok (frameWord s.frame k)
  | .param => .ok (paramWord s.cfg)
  | .msg w => readMsgWord s w
  | .sym w => readSymWord s w
  | .reserved => .ok 0

/-- A host read of a target: a free value from a buffer while BUSY = 1 (R155), the target's value
otherwise. It has no side effect (R46). -/
def readAccess (t : Target) (s : State) : Host.Outcome State Fault Refusal :=
  if s.busy && t.isBuffer then .next (s.answerFree (dataMask s.cfg t))
  else
    match readTarget s t with
    | .error e => .fault e
    | .ok v => .next (s.answer v)

/-- A host read (`MemRead`, R53). -/
def hostRead (addr width : Nat) (s : State) : Host.Outcome State Fault Refusal :=
  match locate s.cfg addr width with
  | .error e => .refused e
  | .ok off => readAccess (targetAt off) s

/-- A host write of a word to CMD (R61, R140): ignored with OVR set while BUSY = 1 (R73); otherwise
an illegal word is rejected, then a wrong length is (R72), and what is left is accepted (R71). -/
def issue (w : Word) (s : State) : State :=
  if s.busy then s.overrun
  else
    match decode w with
    | .error _ => s.reject .illegalCommand
    | .ok i => if lengthOk s.cfg.nmax i then s.accept w else s.reject .invalidLength

/-- A host write to a target other than by a hazard (R46): CMD issues a command, a buffer's word sets
exactly the elements it maps, and everything else ignores the write. -/
def writeTarget (t : Target) (v : Word) (s : State) : State :=
  match t with
  | .cmd => issue v s
  | .frame k => { s with frame := writeFrameWord s.frame k v }
  | .msg w =>
    { s with msg := Memory.writeBlock s.msg (32 * w) (unpackBits (elementsIn s.cfg.nmax 32 w) v) }
  | .sym w =>
    { s with
      sym := Memory.writeBlock s.sym (16 * w) (unpackSymbols (elementsIn (2 * s.cfg.nmax) 16 w) v) }
  | _ => s

/-- A host write to a target at an offset: HostHazard on a buffer while BUSY = 1 (R154). -/
def writeAccess (off : Nat) (v : Word) (s : State) : Host.Outcome State Fault Refusal :=
  if s.busy && (targetAt off).isBuffer then .fault (.hostHazard off)
  else .next (writeTarget (targetAt off) v s)

/-- A host write (`MemWrite`, R53). -/
def hostWrite (addr width : Nat) (v : Word) (s : State) : Host.Outcome State Fault Refusal :=
  match locate s.cfg addr width with
  | .error e => .refused e
  | .ok off => writeAccess off v s

end Sys2Proof.Machine
end

