-- ==== Sys2Proof/Machine/Step.lean ====
section
/-! DEFINITION. The step of ZZFEC: the next turn in `inputs` is taken (R47, R134). -/

namespace Sys2Proof.Machine

/-- One turn: of the host, of the engine or of the reset input (log 2). When no turn is waiting, the
engine takes its own, so that a command in flight completes (R74's fairness, log 3). -/
def step (s : State) : Host.Outcome State Fault Refusal :=
  match s.inputs with
  | [] => engineTurn s
  | .read addr width :: rest => hostRead addr width { s with inputs := rest }
  | .write addr width v :: rest => hostWrite addr width v { s with inputs := rest }
  | .engine :: rest => engineTurn { s with inputs := rest }
  | .reset :: rest => .next (State.resetInput { s with inputs := rest })

/-- The state with a command word in CUR, BUSY set and the engine's turn next, so that the next step
runs it. It stands for the host's CMD write that R71 accepts, the only way a command comes to run
(log 4). -/
def State.withFetchWord (s : State) (nbits w : Nat) : State :=
  { s with cur := curOfWord (tableWord nbits w), busy := true, inputs := .engine :: s.inputs }

end Sys2Proof.Machine
end

