-- ==== Sys2Proof/Machine/HostAsm.lean ====
section
/-! DEFINITION. The host assembly of the spec (R78 to R80) as an agent that drives the machine: its
statements, the command pseudo-instructions, POLL and RUN, and the turn of a host that runs a program.
The host's own registers and control flow are outside ZZFEC (R76), so they stand here and not in
State (log 19). -/

namespace Sys2Proof.Machine

/-- A register name of the assembly (R78). -/
inductive RegName where
  | cmd
  | status
  | hamSyn
  | vitInfo
  | frame0
  | frame1
  | frame2
  | param
  /-- `MSG[w]`. -/
  | msg (w : Nat)
  /-- `SYM[w]`. -/
  | sym (w : Nat)
deriving DecidableEq, Repr

/-- `off(REG)` (R37, R78). -/
def RegName.offset : RegName → Nat
  | .cmd => 0x000
  | .status => 0x004
  | .hamSyn => 0x008
  | .vitInfo => 0x00C
  | .frame0 => 0x010
  | .frame1 => 0x014
  | .frame2 => 0x018
  | .param => 0x01C
  | .msg w => 0x1000 + 4 * w
  | .sym w => 0x2000 + 4 * w

/-- A statement of the assembly (R78). Host variables and labels are numbered. -/
inductive HostStmt where
  /-- `sw REG, imm32`. -/
  | sw (reg : RegName) (imm : Word)
  /-- `lw x, REG`. -/
  | lw (x : Nat) (reg : RegName)
  /-- `bnz x, mask, label`. -/
  | bnz (x : Nat) (mask : Word) (label : Nat)
  /-- `name:`. -/
  | label (name : Nat)
deriving DecidableEq, Repr

/-- A command pseudo-instruction is one write of its word to CMD (R79). -/
def commandStmt (i : Instr) : HostStmt := .sw .cmd (encode i)

/-- `POLL` with scratch variable `t` and fresh label `l`: it loops while STATUS.BUSY = 1 (R80). -/
def pollStmts (t l : Nat) : List HostStmt := [.label l, .lw t .status, .bnz t 0x10 l]

/-- `RUN c`: the command, then `POLL` (R80). -/
def runStmts (i : Instr) (t l : Nat) : List HostStmt := commandStmt i :: pollStmts t l

/-- A host that runs a program of the assembly, and the block it drives. -/
structure Hosted where
  prog : List HostStmt
  /-- The index of the next statement. -/
  here : Nat
  /-- The host's variables. One that nothing has set reads 0 (log 19). -/
  vars : List (Nat × Word)
  dev : State
deriving DecidableEq, Repr

/-- The value of a host variable. -/
def Hosted.var (h : Hosted) (x : Nat) : Word :=
  match h.vars.find? fun p => p.1 == x with
  | some p => p.2
  | none => 0

/-- The statement index a label stands at. DESIGN CHOICE (log 19): the first place, for a label written
at several, and past the program, for one written nowhere. R78 says neither. -/
def Hosted.labelAt (h : Hosted) (l : Nat) : Nat := h.prog.findIdx fun st => st == .label l

/-- One access of the host, taken by the machine before any other turn. -/
def deviceTurn (i : Input) (d : State) : Host.Outcome State Fault Refusal :=
  step { d with inputs := i :: d.inputs }

/-- Go on once the block has taken a turn; a stop of the block stops the run. -/
def afterTurn (o : Host.Outcome State Fault Refusal) (f : State → Hosted) :
    Host.Outcome Hosted Fault Refusal :=
  match o with
  | .next d => .next (f d)
  | .fault e => .fault e
  | .refused r => .refused r

/-- The host executes its next statement (R78). A host whose program has ended takes no step. -/
def hostTurn (h : Hosted) : Host.Outcome Hosted Fault Refusal :=
  match h.prog[h.here]? with
  | none => .next h
  | some (.sw reg imm) =>
    afterTurn (deviceTurn (.write (h.dev.cfg.base + reg.offset) 4 imm) h.dev) fun d =>
      { h with here := h.here + 1, dev := d }
  | some (.lw x reg) =>
    afterTurn (deviceTurn (.read (h.dev.cfg.base + reg.offset) 4) h.dev) fun d =>
      { h with here := h.here + 1, dev := d, vars := (x, d.readData) :: h.vars.filter fun p => p.1 != x }
  | some (.bnz x mask l) =>
    .next { h with here := if h.var x &&& mask ≠ 0 then h.labelAt l else h.here + 1 }
  | some (.label _) => .next { h with here := h.here + 1 }

/-- The engine's turn beside a host that runs a program (R134). -/
def hostedEngineTurn (h : Hosted) : Host.Outcome Hosted Fault Refusal :=
  afterTurn (deviceTurn .engine h.dev) fun d => { h with dev := d }

end Sys2Proof.Machine
end

