-- ==== Sys2Proof/Safety.lean ====
section
/-! DEFINITION. What claims call a good state and a safe step. -/

namespace Sys2Proof.Machine

/-- While BUSY = 1, CUR holds a legal command word that keeps its length contract (R71, R139). -/
def State.inFlightOk (s : State) : Bool :=
  !s.busy || match fetch s with
    | .error _ => false
    | .ok i => lengthOk s.cfg.nmax i

/-- HAM_SYN shows a syndrome and, if it reports a correction, the offset and position of R90: its
reserved bits are 0, and K and POS are both 0 or K = msb(SYN) ≥ 2 and POS = SYN + 8 − K, with CSIG 1
(R26, R90, R94). -/
def State.hamSynOk (s : State) : Bool :=
  let syn := s.hamSyn.extractLsb' 0 7
  let csig := s.hamSyn.getLsbD 7
  let k := (s.hamSyn.extractLsb' 8 3).toNat
  let pos := (s.hamSyn.extractLsb' 16 8).toNat
  s.hamSyn.extractLsb' 11 5 == 0 && s.hamSyn.extractLsb' 24 8 == 0 &&
    ((k == 0 && pos == 0) || (csig && decide (2 ≤ k) && k == msb syn && pos + k == syn.toNat + 8))

/-- VIT_INFO's reserved bits are 0 and FMETRIC is at most 2·NMAX (R27, R28, R130). -/
def State.vitInfoOk (s : State) : Bool :=
  s.vitInfo.extractLsb' 6 10 == 0 && decide ((s.vitInfo.extractLsb' 16 16).toNat ≤ 2 * s.cfg.nmax)

/-- The states a block can be in: the build parameters are allowed (R9), the buffers are in canonical
form within their bounds (R21, R22), the command in flight is one that was accepted (R71), and the
report registers show what their rules allow (R26, R27). -/
structure State.Good (s : State) : Prop where
  cfg : s.cfg.wf
  msg : Memory.wf s.cfg.nmax s.msg
  sym : Memory.wf (2 * s.cfg.nmax) s.sym
  inFlight : s.inFlightOk = true
  hamSyn : s.hamSynOk = true
  vitInfo : s.vitInfoOk = true

/-- The step ends in no fault and no refusal. -/
def Completes (o : Host.Outcome State Fault Refusal) : Prop := ∃ t, o = .next t

end Sys2Proof.Machine
end

