-- ==== Sys2Proof/WellFormed.lean ====
section
/-! DEFINITION. Well-formed commands: those that keep the length contract of R59 in a block whose
largest message length is `nmax`. The constructors of `Instr` hold no other field a command word
could not carry. -/

namespace Sys2Proof

/-- A command a block with the given NMAX accepts (R59). -/
abbrev Instr.WellFormed (nmax : Nat) (i : Instr) : Prop := lengthOk nmax i = true

end Sys2Proof
end

