-- ==== Sys2Proof/Certificates/Slice0/Obligations.lean ====
section
/-! DEFINITION. The statements for the provers, one `def Obligations.<Name> : Prop` each, and before
them the few notions they are written in, taken from the rules and not from the model's own
functions. -/

namespace Sys2Proof.Claims

open Sys2Proof.Machine

/-- The message bit `d` steps before step `t`, and 0 before the message starts (R106, R111). -/
def tap (us : List Bool) (t d : Nat) : Bool := if d ≤ t then us.getD (t - d) false else false

/-- Output bit 1 of step `t` of a message: the tap word 1111001 of G1 over (u, r0, .., r5) (R107). -/
def convOut1 (us : List Bool) (t : Nat) : Bool :=
  Bool.xor (tap us t 0) (Bool.xor (tap us t 1) (Bool.xor (tap us t 2) (Bool.xor (tap us t 3) (tap us t 6))))

/-- Output bit 2 of step `t` of a message: the tap word 1011011 of G2 over (u, r0, .., r5), inverted
if INV asks for it (R107, R114). -/
def convOut2 (inv : Bool) (us : List Bool) (t : Nat) : Bool :=
  Bool.xor inv (Bool.xor (tap us t 0)
    (Bool.xor (tap us t 2) (Bool.xor (tap us t 3) (Bool.xor (tap us t 5) (tap us t 6)))))

/-- The hard bit of element `k` of a list of symbols (R118). -/
def hardAt (xs : List Symbol) (k : Nat) : Bool := hard (xs.getD k 0)

/-- The Hamming distance between the encoder's output for a message and the received hard bits: the
metric of the message's path (R120). -/
def pathMetric (inv : Bool) (us : List Bool) (xs : List Symbol) : Nat :=
  ((List.range us.length).map fun t =>
    (Bool.xor (convOut1 us t) (hardAt xs (2 * t))).toNat +
      (Bool.xor (convOut2 inv us t) (hardAt xs (2 * t + 1))).toNat).sum

/-- The elements from index 0 on of a buffer are those of a list, all of them written. -/
def HoldsFromZero {α : Type} (m : Memory α) (vs : List α) : Prop :=
  ∀ k < vs.length, Memory.read m k = vs[k]?

/-- The index of the encoder's state after a message, from its last six bits (R108, R115). -/
def endIndex (us : List Bool) : Nat :=
  ((List.range 6).map fun k => (tap us (us.length - 1) k).toNat * 2 ^ (5 - k)).sum

/-- The node of state `s` in column `t` of a trellis. -/
def nodeOf (cols : List (List Node)) (t : Nat) (s : StateIx) : Node := nodeAt (cols.getD t []) s

/-- `syn(P)`: the non-power C in 3..84 with C + 8 − msb(C) = P (R84). -/
def synOf (p : Nat) : Nat :=
  ((List.range 85).filter fun c => decide (3 ≤ c ∧ c ≠ 2 ^ Nat.log2 c ∧ c + 8 - (Nat.log2 c + 1) = p)).headD 0

/-- The frame with one stored bit flipped. -/
def flipped (f : Frame) (i : Nat) : Frame := f ^^^ BitVec.twoPow 85 i

/-- The fields of HAM_SYN (R26). -/
def synField (w : Word) : Nat := (w.extractLsb' 0 7).toNat
def csigField (w : Word) : Bool := w.getLsbD 7
def kField (w : Word) : Nat := (w.extractLsb' 8 3).toNat
def posField (w : Word) : Nat := (w.extractLsb' 16 8).toNat

/-- The fields of VIT_INFO (R27). -/
def fstateField (w : Word) : StateIx := w.extractLsb' 0 6
def fmetricField (w : Word) : Nat := (w.extractLsb' 16 16).toNat

/-- The decision of HAM_DEC with the conditions in the source's order, A, B, C (R104). -/
def hamDecideABC (v : CondaVariant) (f : Frame) : HamReport :=
  if condA v (checks f) then hamUntouched f .valid
  else if condB (checks f) then hamCorrect v f
  else hamUntouched f .uncorrectable

/-- The offsets of the operand buffers: FRAME0..2, the MSG window and the SYM window (R37, R154). -/
def IsBufferOffset (off : Nat) : Prop :=
  (0x010 ≤ off ∧ off < 0x01C) ∨ (0x1000 ≤ off ∧ off < 0x1800) ∨ (0x2000 ≤ off ∧ off < 0x4000)

/-- The reserved offsets (R37). -/
def IsReservedOffset (off : Nat) : Prop :=
  (0x020 ≤ off ∧ off < 0x1000) ∨ (0x1800 ≤ off ∧ off < 0x2000)

/-- Whether bit `j` of the buffer word at an offset is a bit of an element (R38 to R40). -/
def isElementBit (nmax off j : Nat) : Bool :=
  if off < 0x01C then decide (8 * (off - 0x010) + j < 85)
  else if off < 0x1800 then decide (8 * (off - 0x1000) + j < nmax)
  else decide (4 * (off - 0x2000) + j / 2 < 2 * nmax)

/-- A turn the block has a step for: any turn but a host access that is not 32 bits wide, aligned and
inside the window (R36, R42). -/
def Supported (c : Config) : Input → Prop
  | .read addr width => width = 4 ∧ addr % 4 = 0 ∧ c.base ≤ addr ∧ addr < c.base + 0x4000
  | .write addr width _ => width = 4 ∧ addr % 4 = 0 ∧ c.base ≤ addr ∧ addr < c.base + 0x4000
  | .engine => True
  | .reset => True

/-- The turn of a step is the engine's, or one it takes with no other waiting (log 3), with the command
`i` in flight. -/
def EngineRuns (s : State) (i : Instr) : Prop :=
  s.busy = true ∧ (s.inputs = [] ∨ ∃ rest, s.inputs = .engine :: rest) ∧ fetch s = .ok i

/-- The turn of a step reads element `k` of MSG: a host read of the word that maps it while BUSY = 0, or
the engine's turn with a CONV_ENC of more than `k` bits in flight (R39, R110, R155). -/
def TurnReadsMsg (s : State) (k : Nat) : Prop :=
  (s.busy = false ∧ ∃ rest, s.inputs = .read (s.cfg.base + (0x1000 + 4 * (k / 32))) 4 :: rest) ∨
  ∃ inv len, EngineRuns s (.convEnc inv len) ∧ k < len.toNat

/-- The turn of a step reads element `k` of SYM: a host read of the word that maps it while BUSY = 0, or
the engine's turn with a VIT_DEC of more than `k / 2` steps in flight (R40, R127, R155). -/
def TurnReadsSym (s : State) (k : Nat) : Prop :=
  (s.busy = false ∧ ∃ rest, s.inputs = .read (s.cfg.base + (0x2000 + 4 * (k / 16))) 4 :: rest) ∨
  ∃ inv strict len, EngineRuns s (.vitDec inv strict len) ∧ k < 2 * len.toNat

/-- The result codes a command can end with once accepted (R135). -/
def ownCodes : Instr → List ResultCode
  | .hamEnc _ => [.ok]
  | .hamDec _ => [.valid, .corrected, .uncorrectable]
  | .convEnc _ _ => [.ok]
  | .vitDec _ strict _ => if strict then [.ok, .noValidPath] else [.ok]

end Sys2Proof.Claims

open Sys2Proof Sys2Proof.Machine Sys2Proof.Claims

/-! ## Encoding -/

/-- A few words written out from R58 and R79 decode to the commands they stand for. -/
def Obligations.WrittenOutWordsDecode : Prop :=
  decode 0x004D0001 = .ok (.hamEnc 77) ∧ decode 0x00550002 = .ok (.hamDec 85) ∧
    decode 0x00040013 = .ok (.convEnc true 4) ∧ decode 0x00040003 = .ok (.convEnc false 4) ∧
    decode 0x00040024 = .ok (.vitDec false true 4) ∧ decode 0x00040014 = .ok (.vitDec true false 4)

/-- R79: the expansion of every command pseudo-instruction, with every operand. -/
def Obligations.CommandPseudoInstructionsExpand : Prop :=
  commandStmt (.hamEnc 77) = .sw .cmd 0x004D0001 ∧ commandStmt (.hamDec 85) = .sw .cmd 0x00550002 ∧
    ∀ n : Len,
      commandStmt (.convEnc false n) = .sw .cmd (n.setWidth 32 <<< 16 ||| 0x3) ∧
      commandStmt (.convEnc true n) = .sw .cmd (n.setWidth 32 <<< 16 ||| 0x13) ∧
      commandStmt (.vitDec false false n) = .sw .cmd (n.setWidth 32 <<< 16 ||| 0x4) ∧
      commandStmt (.vitDec true false n) = .sw .cmd (n.setWidth 32 <<< 16 ||| 0x14) ∧
      commandStmt (.vitDec false true n) = .sw .cmd (n.setWidth 32 <<< 16 ||| 0x24) ∧
      commandStmt (.vitDec true true n) = .sw .cmd (n.setWidth 32 <<< 16 ||| 0x34)

/-- Decode and encode agree for every command, on the word and on its byte lanes (R43, R55, R58). -/
def Obligations.DecodeOfEncode : Prop :=
  ∀ i : Instr, decode (encode i) = .ok i ∧ decodeBytes (lanesOfWord (encode i)) = .ok i

/-- Each legal word is the word of the one command it decodes to, so every bit of it is read. -/
def Obligations.EncodeOfDecode : Prop :=
  ∀ (w : Word) (i : Instr), decode w = .ok i →
    encode i = w ∧ i.len = w.extractLsb' 16 16

/-- The words the decoder refuses are exactly the illegal ones of R60: OP 0x0 or 0x5..0xF, a bit of
RSV, INV on HAM_ENC or HAM_DEC, STRICT on any command but VIT_DEC. -/
def Obligations.IllegalWordsAreThoseOfTheRule : Prop :=
  ∀ w : Word,
    (∃ e, decode w = .error e) ↔
      ((w.extractLsb' 0 4).toNat = 0 ∨ 5 ≤ (w.extractLsb' 0 4).toNat ∨ w.extractLsb' 6 10 ≠ 0#10 ∨
        (w.getLsbD 4 = true ∧ ((w.extractLsb' 0 4).toNat = 1 ∨ (w.extractLsb' 0 4).toNat = 2)) ∨
        (w.getLsbD 5 = true ∧ ((w.extractLsb' 0 4).toNat = 1 ∨ (w.extractLsb' 0 4).toNat = 2 ∨
          (w.extractLsb' 0 4).toNat = 3)))

/-! ## The issue of commands -/

/-- R71: a host write of a legal word with a right LEN to CMD of an idle block accepts the command. -/
def Obligations.CmdWriteAccepts : Prop :=
  ∀ (s : State) (w : Word) (i : Instr) (rest : List Input), s.cfg.wf → s.busy = false →
    s.inputs = .write s.cfg.base 4 w :: rest → decode w = .ok i → i.WellFormed s.cfg.nmax →
      step s = .next
        { s with
          cur := { op := w.extractLsb' 0 4, inv := w.getLsbD 4, strict := w.getLsbD 5, len := w.extractLsb' 16 16 }
          busy := true, ovr := false, inputs := rest }

/-- R72: a CMD write that is illegal or of the wrong length is rejected, ILLEGAL_COMMAND first. -/
def Obligations.CmdWriteRejects : Prop :=
  ∀ (s : State) (w : Word) (rest : List Input), s.cfg.wf → s.busy = false →
    s.inputs = .write s.cfg.base 4 w :: rest →
      ((∃ e, decode w = .error e) →
        step s = .next { s with result := .illegalCommand, ovr := false, inputs := rest }) ∧
      ∀ i, decode w = .ok i → ¬ i.WellFormed s.cfg.nmax →
        step s = .next { s with result := .invalidLength, ovr := false, inputs := rest }

/-- R73: a CMD write of any word while BUSY = 1 sets OVR and changes nothing else. -/
def Obligations.CmdWriteWhileBusyOnlySetsOvr : Prop :=
  ∀ (s : State) (w : Word) (rest : List Input), s.cfg.wf → s.busy = true →
    s.inputs = .write s.cfg.base 4 w :: rest →
      step s = .next { s with ovr := true, inputs := rest }

/-- A command whose LEN breaks its contract is rejected by its meaning, whatever the state. In a state
with BUSY = 1, which no accepted command reaches, that BUSY becomes 0 is the model's choice (log 5). -/
def Obligations.WrongLengthIsRejectedByTheMeaning : Prop :=
  ∀ (i : Instr) (s : State), ¬ i.WellFormed s.cfg.nmax →
    exec i s = .next { s with result := .invalidLength, busy := false, ovr := false }

/-! ## The step -/

/-- A step runs the decoded command: the engine's turn, or the turn it takes when no other is waiting
(log 3), is `exec` of the command whose word CUR holds. -/
def Obligations.EngineTurnRunsTheCommandInCur : Prop :=
  ∀ (s : State) (i : Instr), s.busy = true →
    decode (commandWord s.cur.op s.cur.inv s.cur.strict s.cur.len) = .ok i →
      (∀ rest, s.inputs = .engine :: rest → step s = exec i { s with inputs := rest }) ∧
      (s.inputs = [] → step s = exec i s)

/-- A word placed where the step fetches is the command the next step runs (log 4). -/
def Obligations.FetchedWordIsRunNext : Prop :=
  ∀ (s : State) (nbits w : Nat) (i : Instr), decodeTableWord nbits w = some i →
    step (s.withFetchWord nbits w) =
      exec i { s.withFetchWord nbits w with inputs := s.inputs }

/-- R71 and R74 together: the command a CMD write accepts is the one the engine's turn after it runs,
on the state as the CMD write left it. -/
def Obligations.AcceptedCommandIsTheOneRun : Prop :=
  ∀ (s : State) (w : Word) (i : Instr) (rest : List Input), s.cfg.wf → s.busy = false →
    s.inputs = .write s.cfg.base 4 w :: .engine :: rest → decode w = .ok i → i.WellFormed s.cfg.nmax →
      ∃ s1, step s = .next s1 ∧ s1.busy = true ∧
        step s1 = exec i { s with cur := s1.cur, busy := true, ovr := false, inputs := rest }

/-- A turn of the engine with nothing in flight changes nothing (the model's choice, log 3). -/
def Obligations.IdleEngineTurnPasses : Prop :=
  ∀ s : State, s.busy = false →
    (s.inputs = [] → step s = .next s) ∧
    ∀ rest, s.inputs = .engine :: rest → step s = .next { s with inputs := rest }

/-- R152: the reset input gives every item of the spec with a stated reset value that value, whatever
is in flight, and writes no output of the command in flight. The hidden items and the read value take
values of the model's choice (logs 7, 8, 14), of which this says nothing. -/
def Obligations.ResetInputRestoresResetValues : Prop :=
  ∀ (s : State) (rest : List Input), s.inputs = .reset :: rest →
    ∃ t, step s = .next t ∧ t.cfg = s.cfg ∧ t.inputs = rest ∧ t.frame = 0 ∧ t.result = .none ∧
      t.busy = false ∧ t.ovr = false ∧ t.hamSyn = 0 ∧ t.vitInfo = 0 ∧
      (∀ k, Memory.read t.msg k = none) ∧ ∀ k, Memory.read t.sym k = none

/-- The host-visible registers right after reset read 0, for every build, whatever the read value was
before (R152). -/
def Obligations.RegistersReadZeroAfterReset : Prop :=
  ∀ (c : Config) (off : Nat) (before : Word), c.wf →
    off ∈ [0x004, 0x008, 0x00C, 0x010, 0x014, 0x018] →
      ∃ t, step { State.resetFor c with inputs := [.read (c.base + off) 4], readData := before } = .next t ∧
        t.readData = 0

/-- The state after reset is a good one, for every build. -/
def Obligations.ResetIsGood : Prop :=
  State.reset.Good ∧ ∀ c : Config, c.wf → (State.resetFor c).Good

/-- Every step keeps a good state good: the buffers stay in canonical form within their bounds, the
command in flight stays one that could be accepted, HAM_SYN and VIT_INFO keep to what their rules
allow. -/
def Obligations.StepKeepsGood : Prop :=
  ∀ s t : State, s.Good → step s = .next t → t.Good

/-- No step changes the build parameters (R9, R10, R29). -/
def Obligations.StepKeepsBuildParameters : Prop :=
  ∀ s t : State, step s = .next t → t.cfg = s.cfg

/-- Outside the model faults every supported turn of a good state has a next state (R151), and each
model fault is raised only for its cause: HostHazard by a host write to an operand buffer while BUSY = 1,
UnwrittenRead by a turn that reads an element nothing has written (R150). -/
def Obligations.SupportedTurnsHaveAnEffect : Prop :=
  ∀ s : State, s.Good → (∀ inp rest, s.inputs = inp :: rest → Supported s.cfg inp) →
    (∃ t, step s = .next t) ∨
    (∃ addr v rest, s.inputs = .write addr 4 v :: rest ∧ s.busy = true ∧
      IsBufferOffset (addr - s.cfg.base) ∧ step s = .fault (.hostHazard (addr - s.cfg.base))) ∨
    (∃ k, step s = .fault (.unwrittenRead .msg k) ∧ TurnReadsMsg s k ∧ k < s.cfg.nmax ∧
      Memory.read s.msg k = none) ∨
    (∃ k, step s = .fault (.unwrittenRead .sym k) ∧ TurnReadsSym s k ∧ k < 2 * s.cfg.nmax ∧
      Memory.read s.sym k = none)

/-- The flags of STATUS change only at a CMD write, at the completion of a command in flight and at a
reset (R30, R71 to R73, R152). -/
def Obligations.StatusChangesOnlyAtTheseEvents : Prop :=
  ∀ s t : State, step s = .next t →
    (t.result ≠ s.result ∨ t.busy ≠ s.busy ∨ t.ovr ≠ s.ovr) →
      (∃ v rest, s.inputs = .write s.cfg.base 4 v :: rest) ∨
      (s.busy = true ∧ (s.inputs = [] ∨ ∃ rest, s.inputs = .engine :: rest)) ∨
      (∃ rest, s.inputs = .reset :: rest)

/-- An accepted command that completes clears BUSY and ends with one of its own codes (R135, R139). -/
def Obligations.AcceptedCommandEndsInItsOwnCode : Prop :=
  ∀ (s t : State) (i : Instr), s.Good → s.busy = true → fetch s = .ok i → exec i s = .next t →
    t.busy = false ∧ t.result ∈ ownCodes i

/-- No command's outputs depend on an earlier command's results, on the flags or on the hidden state
(R6, R30, R75, R103). -/
def Obligations.CommandsIgnoreEarlierResults : Prop :=
  ∀ (i : Instr) (s : State) (result : ResultCode) (busy ovr : Bool) (hamSyn vitInfo readData : Word)
    (cur : Cur) (sr : StateIx) (trellis : List (List Node)) (chk : Checksums),
    match exec i s, exec i { s with result := result, busy := busy, ovr := ovr, hamSyn := hamSyn,
                                    vitInfo := vitInfo, readData := readData, cur := cur, sr := sr,
                                    trellis := trellis, chk := chk } with
    | .next t, .next t' =>
      t'.frame = t.frame ∧ t'.msg = t.msg ∧ t'.sym = t.sym ∧ t'.result = t.result ∧ t'.busy = t.busy ∧
        ((∃ len, i = .hamDec len ∧ i.WellFormed s.cfg.nmax) → t'.hamSyn = t.hamSyn ∧ t'.chk = t.chk) ∧
        ((∃ inv len, i = .convEnc inv len ∧ i.WellFormed s.cfg.nmax) → t'.sr = t.sr) ∧
        ((∃ inv strict len, i = .vitDec inv strict len ∧ i.WellFormed s.cfg.nmax) →
          t'.vitInfo = t.vitInfo ∧ t'.trellis = t.trellis)
    | .fault e, .fault e' => e' = e
    | _, _ => False

/-! ## The register window -/

/-- R38: FRAME0..2 of an idle block, written and read. -/
def Obligations.FrameRegistersPackTheFrame : Prop :=
  ∀ (s : State) (k : Nat) (rest : List Input), s.cfg.wf → s.busy = false → k < 3 →
    (∀ v, s.inputs = .write (s.cfg.base + (0x010 + 4 * k)) 4 v :: rest →
      ∃ f, step s = .next { s with frame := f, inputs := rest } ∧
        ∀ i < 85, f.getLsbD i = if i / 32 = k then v.getLsbD (i % 32) else s.frame.getLsbD i) ∧
    (s.inputs = .read (s.cfg.base + (0x010 + 4 * k)) 4 :: rest →
      ∃ v, step s = .next { s with readData := v, inputs := rest } ∧
        ∀ j < 32, v.getLsbD j = (decide (32 * k + j < 85) && s.frame.getLsbD (32 * k + j)))

/-- R39: a word of the MSG window of an idle block, written and read. -/
def Obligations.MsgWindowPacksBits : Prop :=
  ∀ (s : State) (w : Nat) (rest : List Input), s.cfg.wf → s.busy = false → w < 512 →
    (∀ v, s.inputs = .write (s.cfg.base + (0x1000 + 4 * w)) 4 v :: rest →
      ∃ m, step s = .next { s with msg := m, inputs := rest } ∧
        ∀ n, Memory.read m n =
          if n / 32 = w ∧ n < s.cfg.nmax then some (v.getLsbD (n % 32)) else Memory.read s.msg n) ∧
    (s.inputs = .read (s.cfg.base + (0x1000 + 4 * w)) 4 :: rest →
      (∀ b < 32, 32 * w + b < s.cfg.nmax → (Memory.read s.msg (32 * w + b)).isSome) →
        ∃ v, step s = .next { s with readData := v, inputs := rest } ∧
          ∀ b < 32, v.getLsbD b =
            if 32 * w + b < s.cfg.nmax then (Memory.read s.msg (32 * w + b)).getD false else false)

/-- R40: a word of the SYM window of an idle block, written and read. -/
def Obligations.SymWindowPacksCodes : Prop :=
  ∀ (s : State) (w : Nat) (rest : List Input), s.cfg.wf → s.busy = false → w < 2048 →
    (∀ v, s.inputs = .write (s.cfg.base + (0x2000 + 4 * w)) 4 v :: rest →
      ∃ m, step s = .next { s with sym := m, inputs := rest } ∧
        ∀ k, Memory.read m k =
          if k / 16 = w ∧ k < 2 * s.cfg.nmax then some (v.extractLsb' (2 * (k % 16)) 2)
          else Memory.read s.sym k) ∧
    (s.inputs = .read (s.cfg.base + (0x2000 + 4 * w)) 4 :: rest →
      (∀ f < 16, 16 * w + f < 2 * s.cfg.nmax → (Memory.read s.sym (16 * w + f)).isSome) →
        ∃ v, step s = .next { s with readData := v, inputs := rest } ∧
          ∀ f < 16, v.extractLsb' (2 * f) 2 =
            if 16 * w + f < 2 * s.cfg.nmax then (Memory.read s.sym (16 * w + f)).getD 0 else 0#2)

/-- A host read of a window word that maps an element nothing has written raises UnwrittenRead, naming
such an element of that word (R21, R22, R152). -/
def Obligations.HostReadOfUnwrittenElementFaults : Prop :=
  ∀ (s : State) (w : Nat) (rest : List Input), s.cfg.wf → s.busy = false →
    (w < 512 → s.inputs = .read (s.cfg.base + (0x1000 + 4 * w)) 4 :: rest →
      (∃ n, n / 32 = w ∧ n < s.cfg.nmax ∧ Memory.read s.msg n = none) →
        ∃ n, n / 32 = w ∧ n < s.cfg.nmax ∧ Memory.read s.msg n = none ∧
          step s = .fault (.unwrittenRead .msg n)) ∧
    (w < 2048 → s.inputs = .read (s.cfg.base + (0x2000 + 4 * w)) 4 :: rest →
      (∃ k, k / 16 = w ∧ k < 2 * s.cfg.nmax ∧ Memory.read s.sym k = none) →
        ∃ k, k / 16 = w ∧ k < 2 * s.cfg.nmax ∧ Memory.read s.sym k = none ∧
          step s = .fault (.unwrittenRead .sym k))

/-- A buffer word an idle host has written is what it then reads back, with 0 in the bits that are no
element's (R38 to R41, R161). -/
def Obligations.BufferWordReadsBackAsWritten : Prop :=
  ∀ (s : State) (off : Nat) (v : Word) (rest : List Input), s.cfg.wf → s.busy = false →
    IsBufferOffset off → off % 4 = 0 →
    s.inputs = .write (s.cfg.base + off) 4 v :: .read (s.cfg.base + off) 4 :: rest →
      ∃ s1 s2, step s = .next s1 ∧ step s1 = .next s2 ∧
        ∀ j < 32, s2.readData.getLsbD j = (isElementBit s.cfg.nmax off j && v.getLsbD j)

/-- STATUS as a host reads it, with a command in flight or not: the codes of R25 in [3:0], BUSY and
OVR, and 0 above; a write to STATUS is ignored (R24, R25). -/
def Obligations.StatusReadsItsFields : Prop :=
  ∀ (s : State) (rest : List Input), s.cfg.wf →
    (s.inputs = .read (s.cfg.base + 0x004) 4 :: rest →
      ∃ v, step s = .next { s with readData := v, inputs := rest } ∧
        (v.extractLsb' 0 4).toNat = (match s.result with
          | .none => 0
          | .ok => 1
          | .valid => 2
          | .corrected => 3
          | .uncorrectable => 4
          | .noValidPath => 5
          | .invalidLength => 6
          | .illegalCommand => 7) ∧
        v.getLsbD 4 = s.busy ∧ v.getLsbD 5 = s.ovr ∧ v.extractLsb' 6 26 = 0#26) ∧
    ∀ v, s.inputs = .write (s.cfg.base + 0x004) 4 v :: rest → step s = .next { s with inputs := rest }

/-- R29: PARAM as a host reads it, and that it ignores writes. -/
def Obligations.ParamReadsTheBuild : Prop :=
  ∀ (s : State) (rest : List Input), s.cfg.wf →
    (s.inputs = .read (s.cfg.base + 0x01C) 4 :: rest →
      ∃ v, step s = .next { s with readData := v, inputs := rest } ∧
        (v.extractLsb' 0 16).toNat = s.cfg.nmax ∧ (v.getLsbD 16 = true ↔ s.cfg.conda = .six) ∧
        v.extractLsb' 17 15 = 0#15) ∧
    ∀ v, s.inputs = .write (s.cfg.base + 0x01C) 4 v :: rest → step s = .next { s with inputs := rest }

/-- The other registers and the reserved offsets, with a command in flight or not: CMD and a reserved
offset read 0, HAM_SYN and VIT_INFO their current value; HAM_SYN, VIT_INFO and a reserved offset
ignore writes (R23, R26, R27, R41, R46). -/
def Obligations.ReportRegistersAndReservedOffsets : Prop :=
  ∀ (s : State) (off : Nat) (rest : List Input), s.cfg.wf → off % 4 = 0 →
    (off = 0x000 ∨ off = 0x008 ∨ off = 0x00C ∨ IsReservedOffset off) →
    (s.inputs = .read (s.cfg.base + off) 4 :: rest →
      step s = .next
        { s with
          readData := if off = 0x008 then s.hamSyn else if off = 0x00C then s.vitInfo else 0
          inputs := rest }) ∧
    ∀ v, off ≠ 0x000 → s.inputs = .write (s.cfg.base + off) 4 v :: rest →
      step s = .next { s with inputs := rest }

/-- A host read changes no state of the block: nothing but the model's read value and its count of
free values (R46). -/
def Obligations.HostReadHasNoSideEffect : Prop :=
  ∀ (s t : State) (addr width : Nat) (rest : List Input), s.inputs = .read addr width :: rest →
    step s = .next t →
      t = { s with inputs := rest, readData := t.readData, freeCount := t.freeCount }

/-- R154: host writes while BUSY = 1, at every offset of the window. -/
def Obligations.HostWritesWhileBusy : Prop :=
  ∀ (s : State) (off : Nat) (v : Word) (rest : List Input), s.cfg.wf → s.busy = true →
    off % 4 = 0 → off < 0x4000 → s.inputs = .write (s.cfg.base + off) 4 v :: rest →
      (IsBufferOffset off → step s = .fault (.hostHazard off)) ∧
      (off = 0x000 → step s = .next { s with ovr := true, inputs := rest }) ∧
      (¬ IsBufferOffset off → off ≠ 0x000 → step s = .next { s with inputs := rest })

/-- R155: host reads while BUSY = 1. A buffer's word reads as some value of which nothing is said but
that its reserved bits are 0 (a free value, log 9); the registers read as they are. -/
def Obligations.HostReadsWhileBusy : Prop :=
  ∀ (s : State) (off : Nat) (rest : List Input), s.cfg.wf → s.busy = true → off % 4 = 0 →
    s.inputs = .read (s.cfg.base + off) 4 :: rest →
      (IsBufferOffset off → ∃ (v : Word) (n : Nat),
        step s = .next { s with readData := v, freeCount := n, inputs := rest } ∧
          ∀ j < 32, isElementBit s.cfg.nmax off j = false → v.getLsbD j = false) ∧
      (off = 0x004 → step s = .next { s with readData := statusWord s, inputs := rest }) ∧
      (off = 0x008 → step s = .next { s with readData := s.hamSyn, inputs := rest }) ∧
      (off = 0x00C → step s = .next { s with readData := s.vitInfo, inputs := rest }) ∧
      (off = 0x01C → step s = .next { s with readData := paramWord s.cfg, inputs := rest })

/-- R42: an access that is not 32 bits wide and aligned has no step. -/
def Obligations.UnsupportedAccessesAreRefused : Prop :=
  ∀ (s : State) (addr width : Nat) (rest : List Input), (width ≠ 4 ∨ addr % 4 ≠ 0) →
    (s.inputs = .read addr width :: rest → step s = .refused (.unsupportedAccess addr width)) ∧
    ∀ v, s.inputs = .write addr width v :: rest → step s = .refused (.unsupportedAccess addr width)

/-! ## HAM -/

/-- The index sets of R83 have the closed form of R84. -/
def Obligations.IndexSetsHaveTheClosedForm : Prop :=
  ∀ p : Nat, 9 ≤ p → p ≤ 85 →
    (∃! c, 3 ≤ c ∧ c ≤ 84 ∧ c ≠ 2 ^ Nat.log2 c ∧ c + 8 - (Nat.log2 c + 1) = p) ∧
    ∀ j, 1 ≤ j → j ≤ 7 → (p ∈ indexSet j ↔ (synOf p).testBit (j - 1) = true)

/-- The checksums of R87, with the weight and the highest bit of R13. -/
def Obligations.ChecksumsAreTheRules : Prop :=
  ∀ f : Frame,
    (∀ j, 1 ≤ j → j ≤ 7 → (checks f).c.getLsbD (j - 1) =
      Bool.xor (f.getLsbD (84 - j)) (xorOver (indexSet j) fun p => f.getLsbD (85 - p))) ∧
    (checks f).sigma = xorOver (List.range 85) (fun i => f.getLsbD i) ∧
    popcount (checks f).c = ((List.range 7).map fun k => ((checks f).c.getLsbD k).toNat).sum ∧
    ((checks f).c ≠ 0 → msb (checks f).c = Nat.log2 (checks f).c.toNat + 1)

/-- HAM_ENC completes: the data bits stay, β_j is the set parity of the data, the frame's overall
parity is 0, and nothing else changes (R86). -/
def Obligations.HamEncWritesTheParityBits : Prop :=
  ∀ s : State, ∃ f : Frame,
    exec (.hamEnc 77) s = .next { s with frame := f, result := .ok, busy := false } ∧
      (∀ i < 77, f.getLsbD i = s.frame.getLsbD i) ∧
      (∀ j, 1 ≤ j → j ≤ 7 →
        f.getLsbD (84 - j) = xorOver (indexSet j) fun p => s.frame.getLsbD (85 - p)) ∧
      xorOver (List.range 85) (fun i => f.getLsbD i) = false

/-- HAM_DEC completes with the outcome of R95's table, and changes nothing but FRAME, HAM_SYN, CHK
and the result. CHK holds the last evaluation (log 15). -/
def Obligations.HamDecFollowsTheOutcomeTable : Prop :=
  ∀ s : State, ∃ (f : Frame) (syn : Word) (code : ResultCode),
    exec (.hamDec 85) s = .next
      { s with frame := f, hamSyn := syn, chk := checks f, result := code, busy := false } ∧
    let c := (checks s.frame).c.toNat
    let w := popcount (checks s.frame).c
    let pos := c + 8 - msb (checks s.frame).c
    ((checks s.frame).sigma = false →
      (w = 0 → code = .valid ∧ f = s.frame) ∧ (1 ≤ w → code = .uncorrectable ∧ f = s.frame)) ∧
    ((checks s.frame).sigma = true →
      (w = 0 → code = .uncorrectable ∧ f = s.frame) ∧
      (w = 1 → f = s.frame ∧ code = if s.cfg.conda = .one then .valid else .uncorrectable) ∧
      (2 ≤ w → w ≤ 5 → c ≤ 84 → code = .corrected ∧ f = flipped s.frame (85 - pos)) ∧
      (2 ≤ w → w ≤ 5 → 85 ≤ c → code = .uncorrectable ∧ f = s.frame) ∧
      (w = 6 → s.cfg.conda = .one → c ≤ 84 → c = 63 ∧ code = .corrected ∧ f = flipped s.frame 20) ∧
      (w = 6 → s.cfg.conda = .one → 85 ≤ c → code = .uncorrectable ∧ f = s.frame) ∧
      (w = 6 → s.cfg.conda = .six → code = .valid ∧ f = s.frame) ∧
      (w = 7 → code = .uncorrectable ∧ f = s.frame))

/-- R94: what HAM_DEC leaves in HAM_SYN. The Condition-B branch is taken when c_sigma = 1 and w ≥ 2,
unless Condition A (w = 6 under SIX) or Condition C (w = 7) holds first. -/
def Obligations.HamDecReportsTheFirstEvaluation : Prop :=
  ∀ s : State, ∃ t, exec (.hamDec 85) s = .next t ∧
    synField t.hamSyn = (checks s.frame).c.toNat ∧ csigField t.hamSyn = (checks s.frame).sigma ∧
    t.hamSyn.extractLsb' 11 5 = 0#5 ∧ t.hamSyn.extractLsb' 24 8 = 0#8 ∧
    if (checks s.frame).sigma = true ∧ 2 ≤ popcount (checks s.frame).c ∧
        popcount (checks s.frame).c ≤ (if s.cfg.conda = .six then 5 else 6) then
      kField t.hamSyn = msb (checks s.frame).c ∧
        posField t.hamSyn = (checks s.frame).c.toNat + 8 - msb (checks s.frame).c
    else kField t.hamSyn = 0 ∧ posField t.hamSyn = 0

/-- R96: at most one bit is flipped, and never a parity bit. -/
def Obligations.HamDecFlipsAtMostOneDataBit : Prop :=
  ∀ s : State, ∃ t, exec (.hamDec 85) s = .next t ∧
    (t.frame = s.frame ∨ ∃ i < 77, t.frame = flipped s.frame i)

/-- R97: a position of Condition B that is at most 85 is a data bit whose syndrome is C, so the re-check
after a flip always passes and CORRECTED is reported whenever a bit is flipped. -/
def Obligations.HamDecRecheckAlwaysPasses : Prop :=
  ∀ s : State,
    let c := (checks s.frame).c
    (condB (checks s.frame) = true → correctionPos c ≤ 85 →
      3 ≤ c.toNat ∧ c.toNat ≤ 84 ∧ c.toNat ≠ 2 ^ Nat.log2 c.toNat ∧ synOf (correctionPos c) = c.toNat ∧
      ∀ j, 1 ≤ j → j ≤ 7 →
        (checksum (flipped s.frame (85 - correctionPos c)) j ≠ checksum s.frame j ↔
          c.getLsbD (j - 1) = true)) ∧
    ∃ t, exec (.hamDec 85) s = .next t ∧ (t.frame ≠ s.frame ↔ t.result = .corrected) ∧
      (t.frame ≠ s.frame → checks t.frame = { c := 0, sigma := false } ∧
        condA s.cfg.conda (checks t.frame) = true)

/-- R98: round trip. -/
def Obligations.HamRoundTripIsValid : Prop :=
  ∀ s : State, ∃ t1 t2, exec (.hamEnc 77) s = .next t1 ∧ exec (.hamDec 85) t1 = .next t2 ∧
    t2.result = .valid ∧ t2.frame = t1.frame ∧ t2.hamSyn = 0 ∧
    ∀ i < 77, t2.frame.getLsbD i = s.frame.getLsbD i

/-- R99: a single data error is corrected; under SIX the one at stored index 20 is not. -/
def Obligations.SingleDataErrorIsCorrected : Prop :=
  ∀ (s : State) (d : Frame) (i : Nat), i < 77 → s.frame = flipped (encodeFrame d) i →
    ∃ t, exec (.hamDec 85) s = .next t ∧
      (s.cfg.conda = .one ∨ i ≠ 20 →
        t.result = .corrected ∧ t.frame = encodeFrame d ∧ synField t.hamSyn = synOf (85 - i) ∧
          csigField t.hamSyn = true ∧ kField t.hamSyn = Nat.log2 (synOf (85 - i)) + 1 ∧
          posField t.hamSyn = 85 - i) ∧
      (s.cfg.conda = .six → i = 20 → t.result = .valid ∧ t.frame = s.frame)

/-- R100: a single parity-bit error leaves FRAME as it is. -/
def Obligations.SingleParityErrorLeavesTheFrame : Prop :=
  ∀ (s : State) (d : Frame),
    (∀ j, 1 ≤ j → j ≤ 7 → s.frame = flipped (encodeFrame d) (84 - j) →
      ∃ t, exec (.hamDec 85) s = .next t ∧ t.frame = s.frame ∧ synField t.hamSyn = 2 ^ (j - 1) ∧
        csigField t.hamSyn = true ∧
        t.result = (if s.cfg.conda = .one then .valid else .uncorrectable)) ∧
    (s.frame = flipped (encodeFrame d) 84 →
      ∃ t, exec (.hamDec 85) s = .next t ∧ t.frame = s.frame ∧ synField t.hamSyn = 0 ∧
        csigField t.hamSyn = true ∧ t.result = .uncorrectable)

/-- R101: a double error is reported and left as it is, under both variants. -/
def Obligations.DoubleErrorIsUncorrectable : Prop :=
  ∀ (s : State) (d : Frame) (i j : Nat), i < 85 → j < 85 → i ≠ j →
    s.frame = flipped (flipped (encodeFrame d) i) j →
      ∃ t, exec (.hamDec 85) s = .next t ∧ t.result = .uncorrectable ∧ t.frame = s.frame ∧
        csigField t.hamSyn = false ∧ synField t.hamSyn ≠ 0

/-- R104: the source's order of the conditions gives the same FRAME and RESULT. The orders differ only
where c_sigma = 1 and w = 7, and there the A, B, C order computes POS = 128. -/
def Obligations.ConditionOrderDoesNotMatter : Prop :=
  ∀ (v : CondaVariant) (f : Frame),
    (hamDecideABC v f).frame = (hamDecide v f).frame ∧ (hamDecideABC v f).code = (hamDecide v f).code ∧
    (hamDecideABC v f ≠ hamDecide v f ↔ ((checks f).sigma = true ∧ popcount (checks f).c = 7)) ∧
    ((checks f).sigma = true → popcount (checks f).c = 7 →
      (hamDecideABC v f).pos = 128 ∧ (hamDecide v f).k = 0 ∧ (hamDecide v f).pos = 0)

/-! ## CONV -/

/-- The register, the state index and the generators on state indices (R106, R108, R109). -/
def Obligations.GeneratorsOnStateIndices : Prop :=
  ∀ (s : StateIx) (u inv : Bool),
    (nextState s u).toNat = 32 * u.toNat + s.toNat / 2 ∧ (nextState s u).getLsbD 5 = u ∧
    (gen s u inv).1 = Bool.xor u (Bool.xor (s.getLsbD 5) (Bool.xor (s.getLsbD 4)
      (Bool.xor (s.getLsbD 3) (s.getLsbD 0)))) ∧
    (gen s u inv).2 = Bool.xor u (Bool.xor (s.getLsbD 4) (Bool.xor (s.getLsbD 3)
      (Bool.xor (s.getLsbD 1) (Bool.xor (s.getLsbD 0) inv))))

/-- CONV_ENC completes: from a zero register, SYM[2t] and SYM[2t+1] are the soft codes of the two
generator sums over the message, SR ends with the last six message bits, and nothing else changes
(R107, R110 to R113, R115). -/
def Obligations.ConvEncEncodesTheMessage : Prop :=
  ∀ (s : State) (inv : Bool) (len : Len) (us : List Bool),
    (Instr.convEnc inv len).WellFormed s.cfg.nmax → us.length = len.toNat → HoldsFromZero s.msg us →
      ∃ (m : Memory Symbol) (sr : StateIx),
        exec (.convEnc inv len) s = .next { s with sym := m, sr := sr, result := .ok, busy := false } ∧
        (∀ t < us.length,
          Memory.read m (2 * t) = some (if convOut1 us t then 0b11#2 else 0b01#2) ∧
          Memory.read m (2 * t + 1) = some (if convOut2 inv us t then 0b11#2 else 0b01#2)) ∧
        (∀ k, 2 * us.length ≤ k → Memory.read m k = Memory.read s.sym k) ∧
        ∀ k < 6, sr.getLsbD (5 - k) = tap us (us.length - 1) k

/-- R114: INV turns every second symbol of a pair from 01 to 11 or back, and no first one. -/
def Obligations.InversionFlipsTheSecondSymbols : Prop :=
  ∀ (s : State) (len : Len), (Instr.convEnc false len).WellFormed s.cfg.nmax →
    (∀ k < len.toNat, (Memory.read s.msg k).isSome) →
      ∃ t t', exec (.convEnc false len) s = .next t ∧ exec (.convEnc true len) s = .next t' ∧
        ∀ k < len.toNat, Memory.read t'.sym (2 * k) = Memory.read t.sym (2 * k) ∧
          ((Memory.read t.sym (2 * k + 1) = some 0b01#2 ∧ Memory.read t'.sym (2 * k + 1) = some 0b11#2) ∨
            (Memory.read t.sym (2 * k + 1) = some 0b11#2 ∧ Memory.read t'.sym (2 * k + 1) = some 0b01#2))

/-- R116 (b) and (d): without inversion the code is linear, and different messages of one length have
different outputs. -/
def Obligations.ConvolutionalCodeIsLinearAndInjective : Prop :=
  (∀ us vs : List Bool, us.length = vs.length →
    ((convolve false 0 (List.zipWith Bool.xor us vs)).1.map hard) =
      List.zipWith Bool.xor ((convolve false 0 us).1.map hard) ((convolve false 0 vs).1.map hard)) ∧
  ∀ (inv : Bool) (us vs : List Bool), us.length = vs.length →
    (convolve inv 0 us).1 = (convolve inv 0 vs).1 → us = vs

/-- A command that reads an element nothing has written since reset raises UnwrittenRead, naming the
first such element (R21, R22, R153; which element is named is the model's choice, log 21). -/
def Obligations.CommandsFaultOnUnwrittenOperands : Prop :=
  ∀ (s : State) (len : Len) (k : Nat),
    (∀ inv, (Instr.convEnc inv len).WellFormed s.cfg.nmax → k < len.toNat → Memory.read s.msg k = none →
      (∀ j < k, (Memory.read s.msg j).isSome) →
        exec (.convEnc inv len) s = .fault (.unwrittenRead .msg k)) ∧
    (∀ inv strict, (Instr.vitDec inv strict len).WellFormed s.cfg.nmax → k < 2 * len.toNat →
      Memory.read s.sym k = none → (∀ j < k, (Memory.read s.sym j).isSome) →
        exec (.vitDec inv strict len) s = .fault (.unwrittenRead .sym k))

/-! ## VIT -/

/-- VIT_DEC completes: OK with N message bits written and the rest of MSG as before, or, only under
STRICT with a metric that is not 0, NO_VALID_PATH with MSG as before; VIT_INFO and TRELLIS are written,
and nothing else changes (R125 to R128). -/
def Obligations.VitDecCompletes : Prop :=
  ∀ (s : State) (inv strict : Bool) (len : Len) (xs : List Symbol), s.cfg.wf →
    (Instr.vitDec inv strict len).WellFormed s.cfg.nmax → xs.length = 2 * len.toNat →
    HoldsFromZero s.sym xs →
      ∃ (m : Memory Bool) (info : Word) (code : ResultCode),
        exec (.vitDec inv strict len) s = .next
          { s with msg := m, vitInfo := info, trellis := buildTrellis inv xs, result := code, busy := false } ∧
        info.extractLsb' 6 10 = 0#10 ∧
        (if strict = true ∧ fmetricField info ≠ 0 then code = .noValidPath ∧ m = s.msg
          else code = .ok ∧ ∃ us : List Bool, us.length = len.toNat ∧ HoldsFromZero m us ∧
            ∀ k, len.toNat ≤ k → Memory.read m k = Memory.read s.msg k)

/-- VIT_DEC is a maximum-likelihood decoder (R117, R120, R124, R126): FMETRIC is the least Hamming
distance of any N-bit message's encoding to the received hard bits, and on OK the message it writes has
that distance and ends the encoder in FSTATE. FSTATE is the reachable state of column N of least metric
and, on a tie, of least index; so a message that ends the encoder in a lower state has a greater
distance. -/
def Obligations.VitDecFindsALeastDistanceMessage : Prop :=
  ∀ (s : State) (inv strict : Bool) (len : Len) (xs : List Symbol), s.cfg.wf →
    (Instr.vitDec inv strict len).WellFormed s.cfg.nmax → xs.length = 2 * len.toNat →
    HoldsFromZero s.sym xs →
      ∃ (t : State) (us : List Bool), exec (.vitDec inv strict len) s = .next t ∧
        us.length = len.toNat ∧ pathMetric inv us xs = fmetricField t.vitInfo ∧
        (∀ vs : List Bool, vs.length = len.toNat →
          fmetricField t.vitInfo ≤ pathMetric inv vs xs ∧
          (endIndex vs < (fstateField t.vitInfo).toNat → fmetricField t.vitInfo < pathMetric inv vs xs)) ∧
        (let last := finalColumn (buildTrellis inv xs);
          (nodeAt last (fstateField t.vitInfo)).reach = true ∧
          (nodeAt last (fstateField t.vitInfo)).pm = fmetricField t.vitInfo ∧
          ∀ n : StateIx, (nodeAt last n).reach = true →
            fmetricField t.vitInfo ≤ (nodeAt last n).pm ∧
            (n < fstateField t.vitInfo → fmetricField t.vitInfo < (nodeAt last n).pm)) ∧
        (∀ k < 6, (fstateField t.vitInfo).getLsbD (5 - k) = tap us (us.length - 1) k) ∧
        (t.result = .ok → HoldsFromZero t.msg us)

/-- R123, with R121: the two edges into a node, and the node they leave; on equal metrics the
predecessor with b = 0 is kept. -/
def Obligations.PredecessorTieKeepsTheLowerState : Prop :=
  (∀ (p n : StateIx) (u : Bool),
    nextState p u = n ↔ u = n.getLsbD 5 ∧ ∃ b : Bool, p = (n &&& 31#6) <<< 1 ||| place 6 0 (BitVec.ofBool b)) ∧
  ∀ (inv : Bool) (h : Bool × Bool) (col : List Node) (n : StateIx),
    let p0 := (n &&& 31#6) <<< 1
    let p1 := (n &&& 31#6) <<< 1 ||| 1#6
    let m0 := (nodeAt col p0).pm + branchMetric (gen p0 (n.getLsbD 5) inv) h
    let m1 := (nodeAt col p1).pm + branchMetric (gen p1 (n.getLsbD 5) inv) h
    let node := nodeAt (nextColumn inv h col) n
    p0.getLsbD 0 = false ∧ p1.getLsbD 0 = true ∧
    (node.reach = true ↔ (nodeAt col p0).reach = true ∨ (nodeAt col p1).reach = true) ∧
    ((nodeAt col p0).reach = true → ((nodeAt col p1).reach = false ∨ m0 ≤ m1) →
      node.pred = p0 ∧ node.pm = m0) ∧
    ((nodeAt col p1).reach = true → ((nodeAt col p0).reach = false ∨ m1 < m0) →
      node.pred = p1 ∧ node.pm = m1)

/-- R129: every column has a reachable state, both successors of a reachable state are reachable, from
column 6 on all 64 states are, and so a final state is always selected and NO_VALID_PATH means STRICT
and a metric that is not 0. -/
def Obligations.EveryColumnHasAReachableState : Prop :=
  (∀ (inv : Bool) (xs : List Symbol) (t : Nat), t < (buildTrellis inv xs).length →
    (∃ s, (nodeOf (buildTrellis inv xs) t s).reach = true) ∧
    (∀ s u, t + 1 < (buildTrellis inv xs).length → (nodeOf (buildTrellis inv xs) t s).reach = true →
      (nodeOf (buildTrellis inv xs) (t + 1) (nextState s u)).reach = true) ∧
    (6 ≤ t → ∀ s, (nodeOf (buildTrellis inv xs) t s).reach = true) ∧
    (selectFinal (finalColumn (buildTrellis inv xs))).isSome = true) ∧
  ∀ (s t : State) (inv strict : Bool) (len : Len), s.cfg.wf →
    (Instr.vitDec inv strict len).WellFormed s.cfg.nmax → exec (.vitDec inv strict len) s = .next t →
    t.result = .noValidPath → strict = true ∧ fmetricField t.vitInfo ≠ 0

/-- R130: the metric of a reachable node of column t is at most 2t, and FMETRIC at most 2N, which fits
its 16 bits. -/
def Obligations.PathMetricsAreBounded : Prop :=
  (∀ (inv : Bool) (xs : List Symbol) (t : Nat) (s : StateIx),
    (nodeOf (buildTrellis inv xs) t s).reach = true → (nodeOf (buildTrellis inv xs) t s).pm ≤ 2 * t) ∧
  ∀ (s : State) (inv strict : Bool) (len : Len) (xs : List Symbol), s.cfg.wf →
    (Instr.vitDec inv strict len).WellFormed s.cfg.nmax → xs.length = 2 * len.toNat →
    HoldsFromZero s.sym xs →
      ∃ t, exec (.vitDec inv strict len) s = .next t ∧ fmetricField t.vitInfo ≤ 2 * len.toNat ∧
        2 * len.toNat ≤ 2 * s.cfg.nmax ∧ 2 * s.cfg.nmax ≤ 32768

/-- R132: the recorded metric of a node is its predecessor's and the branch metric between them, so it
never decreases along a path; state 0 of every column is reachable, and the least final metric is at
most the metric of the all-zero-input path. -/
def Obligations.PathMetricsNeverDecrease : Prop :=
  ∀ (inv : Bool) (xs : List Symbol),
    (∀ (t : Nat) (n : StateIx), (nodeOf (buildTrellis inv xs) (t + 1) n).reach = true →
      let p := (nodeOf (buildTrellis inv xs) (t + 1) n).pred
      let bm := branchMetric (gen p (n.getLsbD 5) inv) (hardAt xs (2 * t), hardAt xs (2 * t + 1))
      nextState p (n.getLsbD 5) = n ∧ (nodeOf (buildTrellis inv xs) t p).reach = true ∧
        (nodeOf (buildTrellis inv xs) (t + 1) n).pm = (nodeOf (buildTrellis inv xs) t p).pm + bm ∧
        (nodeOf (buildTrellis inv xs) t p).pm ≤ (nodeOf (buildTrellis inv xs) (t + 1) n).pm) ∧
    (∀ t < (buildTrellis inv xs).length, (nodeOf (buildTrellis inv xs) t 0).reach = true) ∧
    ∃ b, selectFinal (finalColumn (buildTrellis inv xs)) = some b ∧
      (nodeAt (finalColumn (buildTrellis inv xs)) b).pm ≤
        pathMetric inv (List.replicate (xs.length / 2) false) xs

/-- R131: clean round trip, for every message, either inversion and either STRICT. -/
def Obligations.CleanStreamDecodesToItsMessage : Prop :=
  ∀ (s : State) (inv strict : Bool) (len : Len) (us : List Bool), s.cfg.wf →
    (Instr.convEnc inv len).WellFormed s.cfg.nmax → us.length = len.toNat → HoldsFromZero s.msg us →
      ∃ t1 t2, exec (.convEnc inv len) s = .next t1 ∧ exec (.vitDec inv strict len) t1 = .next t2 ∧
        t2.result = .ok ∧ HoldsFromZero t2.msg us ∧ fmetricField t2.vitInfo = 0 ∧
        fstateField t2.vitInfo = t1.sr

/-- The soft codes (R14): `soft` writes 01 and 11 only, and `hard` reads 11 as 1 and 01, 00 and 10 as
0. -/
def Obligations.SoftAndHardBits : Prop :=
  soft false = 0b01#2 ∧ soft true = 0b11#2 ∧ hard 0b11#2 = true ∧ hard 0b01#2 = false ∧
    hard 0b00#2 = false ∧ hard 0b10#2 = false

/-! ## The host assembly -/

/-- R80: one pass through a POLL loop. The host leaves it only with BUSY = 0, its variable then holds
STATUS, and the block is as it was. -/
def Obligations.PollLoopsWhileBusy : Prop :=
  ∀ (h : Hosted) (k t l : Nat), h.dev.cfg.wf → h.here = k → h.labelAt l = k →
    h.prog[k]? = some (.label l) → h.prog[k + 1]? = some (.lw t .status) →
    h.prog[k + 2]? = some (.bnz t 0x10 l) →
      ∃ h1 h2 h3, hostTurn h = .next h1 ∧ hostTurn h1 = .next h2 ∧ hostTurn h2 = .next h3 ∧
        h3.dev = { h.dev with readData := statusWord h.dev } ∧ h3.var t = statusWord h.dev ∧
        h3.prog = h.prog ∧ h3.here = if h.dev.busy then k else k + 3
end

