-- ==== Sys2Proof/Laws/Codec.lean ====
section
/-! SUPPORT. The bits of a placed field, and the fields of the words built from fields: a command word,
STATUS, PARAM, HAM_SYN and VIT_INFO. -/

namespace Sys2Proof

/-- A bit of a placed field: the field's own bit from bit `k` on, 0 below it and past the word. -/
@[simp] theorem getLsbD_place {m : Nat} (n k i : Nat) (v : BitVec m) :
    (place n k v).getLsbD i = (decide (i < n) && (decide (k ≤ i) && v.getLsbD (i - k))) := by
  unfold place
  rw [BitVec.getLsbD_shiftLeft, BitVec.getLsbD_setWidth]
  by_cases h1 : i < n
  · by_cases h2 : k ≤ i
    · simp [h1, h2, show ¬ i < k by omega, show i - k < n by omega]
    · simp [h1, h2, show i < k by omega]
  · simp [h1]

/-- A command word, bit by bit. -/
theorem getLsbD_commandWord (op : BitVec 4) (inv strict : Bool) (len : Len) (i : Nat) :
    (commandWord op inv strict len).getLsbD i =
      (decide (i < 32) &&
        (decide (16 ≤ i) && len.getLsbD (i - 16) || (decide (i = 5) && strict) ||
          (decide (i = 4) && inv) || op.getLsbD i)) := by
  simp only [commandWord, BitVec.getLsbD_or, getLsbD_place, BitVec.getLsbD_ofBool, Nat.zero_le,
    decide_true, Bool.true_and, Nat.sub_zero]
  by_cases h : i < 32
  · have e5 : (decide (5 ≤ i) && (decide (i - 5 = 0) && strict)) = (decide (i = 5) && strict) := by
      rw [← Bool.and_assoc, ← Bool.decide_and]
      exact congrArg (· && strict) (decide_eq_decide.2 (by omega))
    have e4 : (decide (4 ≤ i) && (decide (i - 4 = 0) && inv)) = (decide (i = 4) && inv) := by
      rw [← Bool.and_assoc, ← Bool.decide_and]
      exact congrArg (· && inv) (decide_eq_decide.2 (by omega))
    simp [h, e4, e5]
  · simp [h]

section fields

variable (op : BitVec 4) (inv strict : Bool) (len : Len)

@[simp] theorem opField_commandWord : opField (commandWord op inv strict len) = op := by
  refine BitVec.eq_of_getLsbD_eq fun i hi => ?_
  rw [opField, BitVec.getLsbD_extractLsb', getLsbD_commandWord]
  simp [hi, show ¬ 16 ≤ i by omega, show ¬ i = 5 by omega, show ¬ i = 4 by omega, show i < 32 by omega]

@[simp] theorem invField_commandWord : invField (commandWord op inv strict len) = inv := by
  rw [invField, getLsbD_commandWord]; simp

@[simp] theorem strictField_commandWord : strictField (commandWord op inv strict len) = strict := by
  rw [strictField, getLsbD_commandWord]; simp

@[simp] theorem rsvField_commandWord : rsvField (commandWord op inv strict len) = 0#10 := by
  refine BitVec.eq_of_getLsbD_eq fun i hi => ?_
  rw [rsvField, BitVec.getLsbD_extractLsb', getLsbD_commandWord]
  simp [show ¬ 16 ≤ 6 + i by omega, show ¬ 6 + i = 5 by omega, show ¬ 6 + i = 4 by omega,
    BitVec.getLsbD_of_ge op (6 + i) (by omega)]

@[simp] theorem lenField_commandWord : lenField (commandWord op inv strict len) = len := by
  refine BitVec.eq_of_getLsbD_eq fun i hi => ?_
  rw [lenField, BitVec.getLsbD_extractLsb', getLsbD_commandWord]
  simp [hi, show 16 + i < 32 by omega, show ¬ 16 + i = 5 by omega, show ¬ 16 + i = 4 by omega,
    BitVec.getLsbD_of_ge op (16 + i) (by omega)]

end fields

/-- CUR holds the fields of the word it was latched from (R71). -/
theorem Machine.curWord_curOfWord (w : Word) :
    (Machine.curOfWord w).word = commandWord (opField w) (invField w) (strictField w) (lenField w) :=
  rfl

/-- A legal word has RSV = 0 (R58). -/
theorem rsvField_of_decode {w : Word} {i : Instr} (h : decode w = .ok i) : rsvField w = 0#10 := by
  by_contra hne
  rw [decode, if_pos hne] at h
  cases h

/-- A block whose CUR holds the fields of a legal word fetches that word's command (R71, R74). -/
theorem Machine.decode_curWord {w : Word} {i : Instr} (h : decode w = .ok i) :
    decode (Machine.curOfWord w).word = .ok i := by
  rw [← h, Machine.curWord_curOfWord]
  simp only [decode, rsvField_commandWord, opField_commandWord, lenField_commandWord, needNoInv,
    needNoStrict, invField_commandWord, strictField_commandWord, rsvField_of_decode h]

namespace Machine

section reports

variable (chk : Checksums) (k pos : Nat) (b : StateIx) (m : Nat)

/-- A bit of HAM_SYN's word (R26). -/
theorem getLsbD_hamSynWord (i : Nat) :
    (hamSynWord chk k pos).getLsbD i =
      (decide (i < 32) && (decide (16 ≤ i) && (BitVec.ofNat 8 pos).getLsbD (i - 16) ||
        (decide (8 ≤ i) && (BitVec.ofNat 3 k).getLsbD (i - 8) ||
          (decide (i = 7) && chk.sigma || chk.c.getLsbD i)))) := by
  simp only [hamSynWord, BitVec.getLsbD_or, getLsbD_place, BitVec.getLsbD_ofBool, Nat.zero_le,
    decide_true, Bool.true_and, Nat.sub_zero]
  have e7 : (decide (7 ≤ i) && (decide (i - 7 = 0) && chk.sigma)) = (decide (i = 7) && chk.sigma) := by
    rw [← Bool.and_assoc, ← Bool.decide_and]
    exact congrArg (· && chk.sigma) (decide_eq_decide.2 (by omega))
  rw [e7]
  cases decide (i < 32) <;> simp [Bool.or_assoc]

/-- HAM_SYN.SYN (R26). -/
@[simp] theorem syn_hamSynWord : (hamSynWord chk k pos).extractLsb' 0 7 = chk.c := by
  refine BitVec.eq_of_getLsbD_eq fun i hi => ?_
  rw [BitVec.getLsbD_extractLsb', getLsbD_hamSynWord]
  simp [hi, show ¬ 16 ≤ i by omega, show ¬ 8 ≤ i by omega, show ¬ i = 7 by omega, show i < 32 by omega]

/-- HAM_SYN.CSIG (R26). -/
@[simp] theorem csig_hamSynWord : (hamSynWord chk k pos).getLsbD 7 = chk.sigma := by
  rw [getLsbD_hamSynWord]; simp

/-- HAM_SYN.K (R26). -/
@[simp] theorem k_hamSynWord : (hamSynWord chk k pos).extractLsb' 8 3 = BitVec.ofNat 3 k := by
  refine BitVec.eq_of_getLsbD_eq fun i hi => ?_
  rw [BitVec.getLsbD_extractLsb', getLsbD_hamSynWord]
  simp [hi, show ¬ 16 ≤ 8 + i by omega, show ¬ 8 + i = 7 by omega, show 8 + i < 32 by omega,
    BitVec.getLsbD_of_ge chk.c (8 + i) (by omega)]

/-- HAM_SYN.POS (R26). -/
@[simp] theorem pos_hamSynWord : (hamSynWord chk k pos).extractLsb' 16 8 = BitVec.ofNat 8 pos := by
  refine BitVec.eq_of_getLsbD_eq fun i hi => ?_
  rw [BitVec.getLsbD_extractLsb', getLsbD_hamSynWord]
  simp [hi, show ¬ 16 + i = 7 by omega, show 16 + i < 32 by omega,
    BitVec.getLsbD_of_ge chk.c (16 + i) (by omega),
    BitVec.getLsbD_of_ge (BitVec.ofNat 3 k) (16 + i - 8) (by omega)]

/-- HAM_SYN's reserved bits [15:11] (R26). -/
@[simp] theorem reserved_hamSynWord_low : (hamSynWord chk k pos).extractLsb' 11 5 = 0#5 := by
  refine BitVec.eq_of_getLsbD_eq fun i hi => ?_
  rw [BitVec.getLsbD_extractLsb', getLsbD_hamSynWord]
  simp [show ¬ 16 ≤ 11 + i by omega, show ¬ 11 + i = 7 by omega,
    BitVec.getLsbD_of_ge chk.c (11 + i) (by omega),
    BitVec.getLsbD_of_ge (BitVec.ofNat 3 k) (11 + i - 8) (by omega)]

/-- HAM_SYN's reserved bits [31:24] (R26). -/
@[simp] theorem reserved_hamSynWord_high : (hamSynWord chk k pos).extractLsb' 24 8 = 0#8 := by
  refine BitVec.eq_of_getLsbD_eq fun i hi => ?_
  rw [BitVec.getLsbD_extractLsb', getLsbD_hamSynWord]
  simp [show ¬ 24 + i = 7 by omega, BitVec.getLsbD_of_ge chk.c (24 + i) (by omega),
    BitVec.getLsbD_of_ge (BitVec.ofNat 3 k) (24 + i - 8) (by omega),
    BitVec.getLsbD_of_ge (BitVec.ofNat 8 pos) (24 + i - 16) (by omega)]

/-- A bit of VIT_INFO's word (R27). -/
theorem getLsbD_vitInfoWord (i : Nat) :
    (vitInfoWord b m).getLsbD i =
      (decide (i < 32) && (decide (16 ≤ i) && (BitVec.ofNat 16 m).getLsbD (i - 16) || b.getLsbD i)) := by
  simp only [vitInfoWord, BitVec.getLsbD_or, getLsbD_place, Nat.zero_le, decide_true, Bool.true_and,
    Nat.sub_zero]
  cases decide (i < 32) <;> simp

/-- VIT_INFO.FSTATE (R27). -/
@[simp] theorem fstate_vitInfoWord : (vitInfoWord b m).extractLsb' 0 6 = b := by
  refine BitVec.eq_of_getLsbD_eq fun i hi => ?_
  rw [BitVec.getLsbD_extractLsb', getLsbD_vitInfoWord]
  simp [hi, show ¬ 16 ≤ i by omega, show i < 32 by omega]

/-- VIT_INFO.FMETRIC (R27). -/
@[simp] theorem fmetric_vitInfoWord : (vitInfoWord b m).extractLsb' 16 16 = BitVec.ofNat 16 m := by
  refine BitVec.eq_of_getLsbD_eq fun i hi => ?_
  rw [BitVec.getLsbD_extractLsb', getLsbD_vitInfoWord]
  simp [hi, show 16 + i < 32 by omega, BitVec.getLsbD_of_ge b (16 + i) (by omega)]

/-- VIT_INFO's reserved bits [15:6] (R27). -/
@[simp] theorem reserved_vitInfoWord : (vitInfoWord b m).extractLsb' 6 10 = 0#10 := by
  refine BitVec.eq_of_getLsbD_eq fun i hi => ?_
  rw [BitVec.getLsbD_extractLsb', getLsbD_vitInfoWord]
  simp [show ¬ 16 ≤ 6 + i by omega]

end reports

end Machine

end Sys2Proof
end

