-- ==== Sys2Proof/Laws/Frame.lean ====
section
/-! SUPPORT. Bits of the frame after the operations that set them. -/

namespace Sys2Proof.Machine

/-- FRAME after `FRAME[i] <- b`: the bit at `i`, every other bit as before. -/
theorem frameBit_setFrameBit (f : Frame) {i : Nat} (b : Bool) (j : Nat) (hi : i < 85) :
    frameBit (setFrameBit f i b) j = if j = i then b else frameBit f j := by
  unfold setFrameBit frameBit
  cases b
  · by_cases h : j = i
    · subst h; simp [hi]
    · by_cases hj : j < 85
      · simp [h, hj]
      · simp [h, BitVec.getLsbD_of_ge _ _ (Nat.le_of_not_lt hj)]
  · by_cases h : j = i
    · subst h; simp [hi]
    · simp [BitVec.getLsbD_twoPow, h, Ne.symm h]

/-- Two frames with the same 85 bits are equal. -/
theorem frame_ext {f g : Frame} (h : ∀ i < 85, frameBit f i = frameBit g i) : f = g :=
  BitVec.eq_of_getLsbD_eq fun i hi => h i hi

@[simp] theorem xorOver_nil {α : Type} (g : α → Bool) : xorOver [] g = false := rfl

@[simp] theorem xorOver_cons {α : Type} (x : α) (xs : List α) (g : α → Bool) :
    xorOver (x :: xs) g = Bool.xor (g x) (xorOver xs g) := rfl

/-- Exclusive-or over a list is linear in the function. -/
theorem xorOver_xor {α : Type} (xs : List α) (g h : α → Bool) :
    xorOver xs (fun x => Bool.xor (g x) (h x)) = Bool.xor (xorOver xs g) (xorOver xs h) := by
  induction xs with
  | nil => rfl
  | cons x xs ih =>
    simp only [xorOver_cons, ih]
    cases g x <;> cases h x <;> cases xorOver xs g <;> cases xorOver xs h <;> rfl

end Sys2Proof.Machine
end

