-- ==== Sys2Proof/Laws/Memory.lean ====
section
/-! SUPPORT. What the buffer operations do: read after write, blocks of elements, and the canonical
form, which every operation keeps. -/

namespace Sys2Proof.Machine

variable {α : Type}

/-! ## One element -/

@[simp] theorem Memory.read_nil (a : Nat) : Memory.read ([] : Memory α) a = none := rfl

theorem Memory.read_cons (k : Nat) (x : α) (m : Memory α) (a : Nat) :
    Memory.read ((k, x) :: m) a = if k = a then some x else Memory.read m a := rfl

@[simp] theorem Memory.read_write_same (m : Memory α) (a : Nat) (v : α) :
    Memory.read (Memory.write m a v) a = some v := by
  induction m with
  | nil => simp [Memory.write, Memory.read]
  | cons c m ih =>
    obtain ⟨k, x⟩ := c
    unfold Memory.write
    split_ifs with h1 h2
    · simp [Memory.read]
    · simp [Memory.read]
    · simp [Memory.read, Ne.symm h2, ih]

theorem Memory.read_write_ne (m : Memory α) {a b : Nat} (v : α) (h : b ≠ a) :
    Memory.read (Memory.write m a v) b = Memory.read m b := by
  induction m with
  | nil => simp [Memory.write, Memory.read, h.symm]
  | cons c m ih =>
    obtain ⟨k, x⟩ := c
    unfold Memory.write
    split_ifs with h1 h2
    · simp [Memory.read, h.symm]
    · subst h2; simp [Memory.read, h.symm]
    · simp [Memory.read, ih]

/-- A read after a write of one element. -/
theorem Memory.read_write (m : Memory α) (a b : Nat) (v : α) :
    Memory.read (Memory.write m a v) b = if b = a then some v else Memory.read m b := by
  split_ifs with h
  · subst h; simp
  · exact Memory.read_write_ne m v h

/-! ## Blocks -/

@[simp] theorem Memory.writeBlock_nil (m : Memory α) (a : Nat) : Memory.writeBlock m a [] = m := rfl

@[simp] theorem Memory.writeBlock_cons (m : Memory α) (a : Nat) (v : α) (vs : List α) :
    Memory.writeBlock m a (v :: vs) = Memory.writeBlock (Memory.write m a v) (a + 1) vs := rfl

/-- A read after a write of a block: the block's value inside it, what was there before outside. -/
theorem Memory.read_writeBlock (m : Memory α) (a b : Nat) (vs : List α) :
    Memory.read (Memory.writeBlock m a vs) b =
      if a ≤ b ∧ b < a + vs.length then vs[b - a]? else Memory.read m b := by
  induction vs generalizing m a with
  | nil => simp [show ¬ (a ≤ b ∧ b < a) by omega]
  | cons v vs ih =>
    rw [Memory.writeBlock_cons, ih, Memory.read_write]
    simp only [List.length_cons]
    by_cases h : a ≤ b
    · obtain ⟨d, rfl⟩ := Nat.exists_eq_add_of_le h
      cases d with
      | zero => simp
      | succ d =>
        have e : a + (d + 1) - a = d + 1 := by omega
        have e' : a + (d + 1) - (a + 1) = d := by omega
        rw [e, e', List.getElem?_cons_succ]
        by_cases hd : d < vs.length
        · rw [if_pos (by omega), if_pos (by omega)]
        · rw [if_neg (by omega), if_neg (by omega), if_neg (by omega)]
    · rw [if_neg (by omega), if_neg (by omega), if_neg (by omega)]

/-- A block that can be read holds the elements of its indices, in order. -/
theorem Memory.readBlock_ok {m : Memory α} {a n : Nat} {vs : List α}
    (h : Memory.readBlock m a n = .ok vs) :
    vs.length = n ∧ ∀ k < n, Memory.read m (a + k) = vs[k]? := by
  induction n generalizing a vs with
  | zero =>
    simp only [Memory.readBlock, Except.ok.injEq] at h
    subst h; simp
  | succ n ih =>
    unfold Memory.readBlock at h
    cases hr : Memory.read m a with
    | none => rw [hr] at h; cases h
    | some v =>
      rw [hr] at h
      cases hb : Memory.readBlock m (a + 1) n with
      | error k => rw [hb] at h; cases h
      | ok rest =>
        rw [hb] at h
        cases h
        obtain ⟨hl, hrest⟩ := ih hb
        refine ⟨by simp [hl], fun k hk => ?_⟩
        cases k with
        | zero => simpa using hr
        | succ k =>
          rw [show a + (k + 1) = a + 1 + k by omega, hrest k (by omega), List.getElem?_cons_succ]

/-- A block can be read if each of its elements is written. -/
theorem Memory.readBlock_of_written {m : Memory α} {a n : Nat}
    (h : ∀ k < n, (Memory.read m (a + k)).isSome) : ∃ vs, Memory.readBlock m a n = .ok vs := by
  induction n generalizing a with
  | zero => exact ⟨[], rfl⟩
  | succ n ih =>
    obtain ⟨v, hv⟩ := Option.isSome_iff_exists.1 (h 0 (by omega))
    rw [Nat.add_zero] at hv
    obtain ⟨vs, hvs⟩ := ih (a := a + 1) fun k hk => by
      rw [show a + 1 + k = a + (k + 1) by omega]; exact h (k + 1) (by omega)
    exact ⟨v :: vs, by simp [Memory.readBlock, hv, hvs]⟩

/-- A block that cannot be read names its first element that is not written. -/
theorem Memory.readBlock_error {m : Memory α} {a n k : Nat}
    (h : Memory.readBlock m a n = .error k) :
    a ≤ k ∧ k < a + n ∧ Memory.read m k = none ∧ ∀ j, a ≤ j → j < k → (Memory.read m j).isSome := by
  induction n generalizing a with
  | zero => cases h
  | succ n ih =>
    unfold Memory.readBlock at h
    cases hr : Memory.read m a with
    | none =>
      rw [hr] at h
      cases h
      exact ⟨le_refl _, by omega, hr, fun j h1 h2 => by omega⟩
    | some v =>
      rw [hr] at h
      cases hb : Memory.readBlock m (a + 1) n with
      | ok rest => rw [hb] at h; cases h
      | error j =>
        rw [hb] at h
        cases h
        obtain ⟨h1, h2, h3, h4⟩ := ih hb
        refine ⟨by omega, by omega, h3, fun i hi hk => ?_⟩
        by_cases e : i = a
        · subst e; simp [hr]
        · exact h4 i (by omega) hk

/-! ## The canonical form -/

theorem Memory.wf_nil (bound : Nat) : Memory.wf bound ([] : Memory α) := by simp [Memory.wf]

/-- The indices of a buffer after a write are those before it and the one written. -/
theorem Memory.mem_write {m : Memory α} {a : Nat} {v : α} {cell : Nat × α}
    (h : cell ∈ Memory.write m a v) : cell = (a, v) ∨ cell ∈ m := by
  induction m with
  | nil => simpa [Memory.write] using h
  | cons c m ih =>
    obtain ⟨k, x⟩ := c
    unfold Memory.write at h
    split_ifs at h with h1 h2
    · simpa using h
    · rcases List.mem_cons.1 h with e | e
      · exact .inl e
      · exact .inr (List.mem_cons_of_mem _ e)
    · rcases List.mem_cons.1 h with e | e
      · exact .inr (by simp [e])
      · rcases ih e with e | e
        · exact .inl e
        · exact .inr (List.mem_cons_of_mem _ e)

theorem Memory.write_rising {m : Memory α} (a : Nat) (v : α)
    (h : (m.map Prod.fst).Pairwise (· < ·)) :
    ((Memory.write m a v).map Prod.fst).Pairwise (· < ·) := by
  induction m with
  | nil => simp [Memory.write]
  | cons c m ih =>
    obtain ⟨k, x⟩ := c
    rw [List.map_cons, List.pairwise_cons] at h
    obtain ⟨hk, hm⟩ := h
    unfold Memory.write
    split_ifs with h1 h2
    · rw [List.map_cons, List.map_cons, List.pairwise_cons, List.pairwise_cons]
      refine ⟨fun b hb => ?_, hk, hm⟩
      rcases List.mem_cons.1 hb with e | e
      · exact e ▸ h1
      · exact lt_trans h1 (hk b e)
    · subst h2
      exact List.pairwise_cons.2 ⟨hk, hm⟩
    · rw [List.map_cons, List.pairwise_cons]
      refine ⟨fun b hb => ?_, ih hm⟩
      obtain ⟨cell, hc, rfl⟩ := List.mem_map.1 hb
      rcases Memory.mem_write hc with e | e
      · subst e; show k < a; omega
      · exact hk _ (List.mem_map_of_mem e)

/-- A write below the bound keeps the canonical form. -/
theorem Memory.write_wf {bound : Nat} {m : Memory α} {a : Nat} (v : α) (ha : a < bound)
    (h : Memory.wf bound m) : Memory.wf bound (Memory.write m a v) := by
  refine ⟨Memory.write_rising a v h.1, fun cell hc => ?_⟩
  rcases Memory.mem_write hc with e | e
  · subst e; exact ha
  · exact h.2 _ e

/-- A write of a block below the bound keeps the canonical form. -/
theorem Memory.writeBlock_wf {bound : Nat} {m : Memory α} {a : Nat} {vs : List α}
    (ha : vs.length = 0 ∨ a + vs.length ≤ bound) (h : Memory.wf bound m) :
    Memory.wf bound (Memory.writeBlock m a vs) := by
  induction vs generalizing m a with
  | nil => exact h
  | cons v vs ih =>
    simp only [List.length_cons] at ha
    rw [Memory.writeBlock_cons]
    exact ih (by omega) (Memory.write_wf v (by omega) h)

end Sys2Proof.Machine
end

