-- ==== Sys2Proof/Laws/State.lean ====
section
/-! SUPPORT. One lemma per field of State per named update, so that no proof unfolds a record update. -/

namespace Sys2Proof.Machine

variable (s : State)

/-! ## State.post -/

@[simp] theorem State.post_cfg (c : ResultCode) : (s.post c).cfg = s.cfg := rfl
@[simp] theorem State.post_frame (c : ResultCode) : (s.post c).frame = s.frame := rfl
@[simp] theorem State.post_msg (c : ResultCode) : (s.post c).msg = s.msg := rfl
@[simp] theorem State.post_sym (c : ResultCode) : (s.post c).sym = s.sym := rfl
@[simp] theorem State.post_result (c : ResultCode) : (s.post c).result = c := rfl
@[simp] theorem State.post_busy (c : ResultCode) : (s.post c).busy = false := rfl
@[simp] theorem State.post_ovr (c : ResultCode) : (s.post c).ovr = s.ovr := rfl
@[simp] theorem State.post_hamSyn (c : ResultCode) : (s.post c).hamSyn = s.hamSyn := rfl
@[simp] theorem State.post_vitInfo (c : ResultCode) : (s.post c).vitInfo = s.vitInfo := rfl
@[simp] theorem State.post_cur (c : ResultCode) : (s.post c).cur = s.cur := rfl
@[simp] theorem State.post_sr (c : ResultCode) : (s.post c).sr = s.sr := rfl
@[simp] theorem State.post_trellis (c : ResultCode) : (s.post c).trellis = s.trellis := rfl
@[simp] theorem State.post_chk (c : ResultCode) : (s.post c).chk = s.chk := rfl
@[simp] theorem State.post_inputs (c : ResultCode) : (s.post c).inputs = s.inputs := rfl
@[simp] theorem State.post_readData (c : ResultCode) : (s.post c).readData = s.readData := rfl
@[simp] theorem State.post_freeCount (c : ResultCode) : (s.post c).freeCount = s.freeCount := rfl

/-! ## State.reject -/

@[simp] theorem State.reject_cfg (c : ResultCode) : (s.reject c).cfg = s.cfg := rfl
@[simp] theorem State.reject_frame (c : ResultCode) : (s.reject c).frame = s.frame := rfl
@[simp] theorem State.reject_msg (c : ResultCode) : (s.reject c).msg = s.msg := rfl
@[simp] theorem State.reject_sym (c : ResultCode) : (s.reject c).sym = s.sym := rfl
@[simp] theorem State.reject_result (c : ResultCode) : (s.reject c).result = c := rfl
@[simp] theorem State.reject_busy (c : ResultCode) : (s.reject c).busy = false := rfl
@[simp] theorem State.reject_ovr (c : ResultCode) : (s.reject c).ovr = false := rfl
@[simp] theorem State.reject_hamSyn (c : ResultCode) : (s.reject c).hamSyn = s.hamSyn := rfl
@[simp] theorem State.reject_vitInfo (c : ResultCode) : (s.reject c).vitInfo = s.vitInfo := rfl
@[simp] theorem State.reject_cur (c : ResultCode) : (s.reject c).cur = s.cur := rfl
@[simp] theorem State.reject_sr (c : ResultCode) : (s.reject c).sr = s.sr := rfl
@[simp] theorem State.reject_trellis (c : ResultCode) : (s.reject c).trellis = s.trellis := rfl
@[simp] theorem State.reject_chk (c : ResultCode) : (s.reject c).chk = s.chk := rfl
@[simp] theorem State.reject_inputs (c : ResultCode) : (s.reject c).inputs = s.inputs := rfl
@[simp] theorem State.reject_readData (c : ResultCode) : (s.reject c).readData = s.readData := rfl
@[simp] theorem State.reject_freeCount (c : ResultCode) : (s.reject c).freeCount = s.freeCount := rfl

/-! ## State.overrun -/

@[simp] theorem State.overrun_cfg : (s.overrun).cfg = s.cfg := rfl
@[simp] theorem State.overrun_frame : (s.overrun).frame = s.frame := rfl
@[simp] theorem State.overrun_msg : (s.overrun).msg = s.msg := rfl
@[simp] theorem State.overrun_sym : (s.overrun).sym = s.sym := rfl
@[simp] theorem State.overrun_result : (s.overrun).result = s.result := rfl
@[simp] theorem State.overrun_busy : (s.overrun).busy = s.busy := rfl
@[simp] theorem State.overrun_ovr : (s.overrun).ovr = true := rfl
@[simp] theorem State.overrun_hamSyn : (s.overrun).hamSyn = s.hamSyn := rfl
@[simp] theorem State.overrun_vitInfo : (s.overrun).vitInfo = s.vitInfo := rfl
@[simp] theorem State.overrun_cur : (s.overrun).cur = s.cur := rfl
@[simp] theorem State.overrun_sr : (s.overrun).sr = s.sr := rfl
@[simp] theorem State.overrun_trellis : (s.overrun).trellis = s.trellis := rfl
@[simp] theorem State.overrun_chk : (s.overrun).chk = s.chk := rfl
@[simp] theorem State.overrun_inputs : (s.overrun).inputs = s.inputs := rfl
@[simp] theorem State.overrun_readData : (s.overrun).readData = s.readData := rfl
@[simp] theorem State.overrun_freeCount : (s.overrun).freeCount = s.freeCount := rfl

/-! ## State.accept -/

@[simp] theorem State.accept_cfg (w : Word) : (s.accept w).cfg = s.cfg := rfl
@[simp] theorem State.accept_frame (w : Word) : (s.accept w).frame = s.frame := rfl
@[simp] theorem State.accept_msg (w : Word) : (s.accept w).msg = s.msg := rfl
@[simp] theorem State.accept_sym (w : Word) : (s.accept w).sym = s.sym := rfl
@[simp] theorem State.accept_result (w : Word) : (s.accept w).result = s.result := rfl
@[simp] theorem State.accept_busy (w : Word) : (s.accept w).busy = true := rfl
@[simp] theorem State.accept_ovr (w : Word) : (s.accept w).ovr = false := rfl
@[simp] theorem State.accept_hamSyn (w : Word) : (s.accept w).hamSyn = s.hamSyn := rfl
@[simp] theorem State.accept_vitInfo (w : Word) : (s.accept w).vitInfo = s.vitInfo := rfl
@[simp] theorem State.accept_cur (w : Word) : (s.accept w).cur = curOfWord w := rfl
@[simp] theorem State.accept_sr (w : Word) : (s.accept w).sr = s.sr := rfl
@[simp] theorem State.accept_trellis (w : Word) : (s.accept w).trellis = s.trellis := rfl
@[simp] theorem State.accept_chk (w : Word) : (s.accept w).chk = s.chk := rfl
@[simp] theorem State.accept_inputs (w : Word) : (s.accept w).inputs = s.inputs := rfl
@[simp] theorem State.accept_readData (w : Word) : (s.accept w).readData = s.readData := rfl
@[simp] theorem State.accept_freeCount (w : Word) : (s.accept w).freeCount = s.freeCount := rfl

/-! ## State.resetInput -/

@[simp] theorem State.resetInput_cfg : (s.resetInput).cfg = s.cfg := rfl
@[simp] theorem State.resetInput_frame : (s.resetInput).frame = 0 := rfl
@[simp] theorem State.resetInput_msg : (s.resetInput).msg = [] := rfl
@[simp] theorem State.resetInput_sym : (s.resetInput).sym = [] := rfl
@[simp] theorem State.resetInput_result : (s.resetInput).result = .none := rfl
@[simp] theorem State.resetInput_busy : (s.resetInput).busy = false := rfl
@[simp] theorem State.resetInput_ovr : (s.resetInput).ovr = false := rfl
@[simp] theorem State.resetInput_hamSyn : (s.resetInput).hamSyn = 0 := rfl
@[simp] theorem State.resetInput_vitInfo : (s.resetInput).vitInfo = 0 := rfl
@[simp] theorem State.resetInput_cur : (s.resetInput).cur = { op := 0, inv := false, strict := false, len := 0 } := rfl
@[simp] theorem State.resetInput_sr : (s.resetInput).sr = 0 := rfl
@[simp] theorem State.resetInput_trellis : (s.resetInput).trellis = [] := rfl
@[simp] theorem State.resetInput_chk : (s.resetInput).chk = { c := 0, sigma := false } := rfl
@[simp] theorem State.resetInput_inputs : (s.resetInput).inputs = s.inputs := rfl
@[simp] theorem State.resetInput_readData : (s.resetInput).readData = 0 := rfl
@[simp] theorem State.resetInput_freeCount : (s.resetInput).freeCount = s.freeCount := rfl

/-! ## State.answer -/

@[simp] theorem State.answer_cfg (v : Word) : (s.answer v).cfg = s.cfg := rfl
@[simp] theorem State.answer_frame (v : Word) : (s.answer v).frame = s.frame := rfl
@[simp] theorem State.answer_msg (v : Word) : (s.answer v).msg = s.msg := rfl
@[simp] theorem State.answer_sym (v : Word) : (s.answer v).sym = s.sym := rfl
@[simp] theorem State.answer_result (v : Word) : (s.answer v).result = s.result := rfl
@[simp] theorem State.answer_busy (v : Word) : (s.answer v).busy = s.busy := rfl
@[simp] theorem State.answer_ovr (v : Word) : (s.answer v).ovr = s.ovr := rfl
@[simp] theorem State.answer_hamSyn (v : Word) : (s.answer v).hamSyn = s.hamSyn := rfl
@[simp] theorem State.answer_vitInfo (v : Word) : (s.answer v).vitInfo = s.vitInfo := rfl
@[simp] theorem State.answer_cur (v : Word) : (s.answer v).cur = s.cur := rfl
@[simp] theorem State.answer_sr (v : Word) : (s.answer v).sr = s.sr := rfl
@[simp] theorem State.answer_trellis (v : Word) : (s.answer v).trellis = s.trellis := rfl
@[simp] theorem State.answer_chk (v : Word) : (s.answer v).chk = s.chk := rfl
@[simp] theorem State.answer_inputs (v : Word) : (s.answer v).inputs = s.inputs := rfl
@[simp] theorem State.answer_readData (v : Word) : (s.answer v).readData = v := rfl
@[simp] theorem State.answer_freeCount (v : Word) : (s.answer v).freeCount = s.freeCount := rfl

/-! ## State.answerFree -/

@[simp] theorem State.answerFree_cfg (m : Word) : (s.answerFree m).cfg = s.cfg := rfl
@[simp] theorem State.answerFree_frame (m : Word) : (s.answerFree m).frame = s.frame := rfl
@[simp] theorem State.answerFree_msg (m : Word) : (s.answerFree m).msg = s.msg := rfl
@[simp] theorem State.answerFree_sym (m : Word) : (s.answerFree m).sym = s.sym := rfl
@[simp] theorem State.answerFree_result (m : Word) : (s.answerFree m).result = s.result := rfl
@[simp] theorem State.answerFree_busy (m : Word) : (s.answerFree m).busy = s.busy := rfl
@[simp] theorem State.answerFree_ovr (m : Word) : (s.answerFree m).ovr = s.ovr := rfl
@[simp] theorem State.answerFree_hamSyn (m : Word) : (s.answerFree m).hamSyn = s.hamSyn := rfl
@[simp] theorem State.answerFree_vitInfo (m : Word) : (s.answerFree m).vitInfo = s.vitInfo := rfl
@[simp] theorem State.answerFree_cur (m : Word) : (s.answerFree m).cur = s.cur := rfl
@[simp] theorem State.answerFree_sr (m : Word) : (s.answerFree m).sr = s.sr := rfl
@[simp] theorem State.answerFree_trellis (m : Word) : (s.answerFree m).trellis = s.trellis := rfl
@[simp] theorem State.answerFree_chk (m : Word) : (s.answerFree m).chk = s.chk := rfl
@[simp] theorem State.answerFree_inputs (m : Word) : (s.answerFree m).inputs = s.inputs := rfl
@[simp] theorem State.answerFree_readData (m : Word) : (s.answerFree m).readData = Config.freeWord s.freeCount &&& m := rfl
@[simp] theorem State.answerFree_freeCount (m : Word) : (s.answerFree m).freeCount = s.freeCount + 1 := rfl

/-! ## State.withFetchWord -/

@[simp] theorem State.withFetchWord_cfg (nbits w : Nat) : (s.withFetchWord nbits w).cfg = s.cfg := rfl
@[simp] theorem State.withFetchWord_frame (nbits w : Nat) : (s.withFetchWord nbits w).frame = s.frame := rfl
@[simp] theorem State.withFetchWord_msg (nbits w : Nat) : (s.withFetchWord nbits w).msg = s.msg := rfl
@[simp] theorem State.withFetchWord_sym (nbits w : Nat) : (s.withFetchWord nbits w).sym = s.sym := rfl
@[simp] theorem State.withFetchWord_result (nbits w : Nat) : (s.withFetchWord nbits w).result = s.result := rfl
@[simp] theorem State.withFetchWord_busy (nbits w : Nat) : (s.withFetchWord nbits w).busy = true := rfl
@[simp] theorem State.withFetchWord_ovr (nbits w : Nat) : (s.withFetchWord nbits w).ovr = s.ovr := rfl
@[simp] theorem State.withFetchWord_hamSyn (nbits w : Nat) : (s.withFetchWord nbits w).hamSyn = s.hamSyn := rfl
@[simp] theorem State.withFetchWord_vitInfo (nbits w : Nat) : (s.withFetchWord nbits w).vitInfo = s.vitInfo := rfl
@[simp] theorem State.withFetchWord_cur (nbits w : Nat) : (s.withFetchWord nbits w).cur = curOfWord (tableWord nbits w) := rfl
@[simp] theorem State.withFetchWord_sr (nbits w : Nat) : (s.withFetchWord nbits w).sr = s.sr := rfl
@[simp] theorem State.withFetchWord_trellis (nbits w : Nat) : (s.withFetchWord nbits w).trellis = s.trellis := rfl
@[simp] theorem State.withFetchWord_chk (nbits w : Nat) : (s.withFetchWord nbits w).chk = s.chk := rfl
@[simp] theorem State.withFetchWord_inputs (nbits w : Nat) : (s.withFetchWord nbits w).inputs = .engine :: s.inputs := rfl
@[simp] theorem State.withFetchWord_readData (nbits w : Nat) : (s.withFetchWord nbits w).readData = s.readData := rfl
@[simp] theorem State.withFetchWord_freeCount (nbits w : Nat) : (s.withFetchWord nbits w).freeCount = s.freeCount := rfl

/-! ## State.resetFor -/

@[simp] theorem State.resetFor_cfg (c : Config) : (State.resetFor c).cfg = c := rfl
@[simp] theorem State.resetFor_frame (c : Config) : (State.resetFor c).frame = 0 := rfl
@[simp] theorem State.resetFor_msg (c : Config) : (State.resetFor c).msg = [] := rfl
@[simp] theorem State.resetFor_sym (c : Config) : (State.resetFor c).sym = [] := rfl
@[simp] theorem State.resetFor_result (c : Config) : (State.resetFor c).result = .none := rfl
@[simp] theorem State.resetFor_busy (c : Config) : (State.resetFor c).busy = false := rfl
@[simp] theorem State.resetFor_ovr (c : Config) : (State.resetFor c).ovr = false := rfl
@[simp] theorem State.resetFor_hamSyn (c : Config) : (State.resetFor c).hamSyn = 0 := rfl
@[simp] theorem State.resetFor_vitInfo (c : Config) : (State.resetFor c).vitInfo = 0 := rfl
@[simp] theorem State.resetFor_cur (c : Config) : (State.resetFor c).cur = { op := 0, inv := false, strict := false, len := 0 } := rfl
@[simp] theorem State.resetFor_sr (c : Config) : (State.resetFor c).sr = 0 := rfl
@[simp] theorem State.resetFor_trellis (c : Config) : (State.resetFor c).trellis = [] := rfl
@[simp] theorem State.resetFor_chk (c : Config) : (State.resetFor c).chk = { c := 0, sigma := false } := rfl
@[simp] theorem State.resetFor_inputs (c : Config) : (State.resetFor c).inputs = [] := rfl
@[simp] theorem State.resetFor_readData (c : Config) : (State.resetFor c).readData = 0 := rfl
@[simp] theorem State.resetFor_freeCount (c : Config) : (State.resetFor c).freeCount = 0 := rfl

end Sys2Proof.Machine
end

