-- ==== Sys2Proof/Laws/Ops.lean ====
section
/-! SUPPORT. One lemma for each shared operation, each meaning, each access and the step: everything it
can do. Later proofs cite these and unfold nothing. -/

namespace Sys2Proof.Machine

variable {s t : State}

/-! ## What every command does first -/

/-- A command whose LEN is right runs. -/
theorem whenLengthOk_ok {i : Instr} {run : Host.Outcome State Fault Refusal}
    (h : lengthOk s.cfg.nmax i = true) : whenLengthOk i s run = run := if_pos h

/-- A command whose LEN is wrong is rejected (R59, R72). -/
theorem whenLengthOk_bad {i : Instr} {run : Host.Outcome State Fault Refusal}
    (h : lengthOk s.cfg.nmax i = false) : whenLengthOk i s run = .next (s.reject .invalidLength) :=
  if_neg (by simp [h])

/-- A command that answers a next state either was rejected for its LEN or ran. -/
theorem whenLengthOk_next {i : Instr} {run : Host.Outcome State Fault Refusal}
    (h : whenLengthOk i s run = .next t) :
    (lengthOk s.cfg.nmax i = false ∧ t = s.reject .invalidLength) ∨
      (lengthOk s.cfg.nmax i = true ∧ run = .next t) := by
  cases hl : lengthOk s.cfg.nmax i with
  | false => rw [whenLengthOk_bad hl] at h; cases h; exact .inl ⟨rfl, rfl⟩
  | true => rw [whenLengthOk_ok hl] at h; exact .inr ⟨rfl, h⟩

/-- What a command that reads MSG goes on with, when it does. -/
theorem withMsg_next {n : Nat} {run : List Bool → Host.Outcome State Fault Refusal}
    (h : withMsg n s run = .next t) : ∃ us, Memory.readBlock s.msg 0 n = .ok us ∧ run us = .next t := by
  unfold withMsg at h
  cases hb : Memory.readBlock s.msg 0 n with
  | error k => rw [hb] at h; cases h
  | ok us => rw [hb] at h; exact ⟨us, rfl, h⟩

/-- What a command that reads SYM goes on with, when it does. -/
theorem withSym_next {n : Nat} {run : List Symbol → Host.Outcome State Fault Refusal}
    (h : withSym n s run = .next t) : ∃ xs, Memory.readBlock s.sym 0 n = .ok xs ∧ run xs = .next t := by
  unfold withSym at h
  cases hb : Memory.readBlock s.sym 0 n with
  | error k => rw [hb] at h; cases h
  | ok xs => rw [hb] at h; exact ⟨xs, rfl, h⟩

/-! ## The meanings -/

theorem execHamEnc_next {len : Len} (h : execHamEnc len s = .next t) :
    (lengthOk s.cfg.nmax (.hamEnc len) = false ∧ t = s.reject .invalidLength) ∨
      (lengthOk s.cfg.nmax (.hamEnc len) = true ∧
        t = State.post .ok { s with frame := encodeFrame s.frame }) := by
  rcases whenLengthOk_next h with h | ⟨hl, hr⟩
  · exact .inl h
  · cases hr; exact .inr ⟨hl, rfl⟩

theorem execHamDec_next {len : Len} (h : execHamDec len s = .next t) :
    (lengthOk s.cfg.nmax (.hamDec len) = false ∧ t = s.reject .invalidLength) ∨
      (lengthOk s.cfg.nmax (.hamDec len) = true ∧
        t = State.post (hamDecide s.cfg.conda s.frame).code
          { s with
            frame := (hamDecide s.cfg.conda s.frame).frame
            hamSyn := hamSynWord (checks s.frame) (hamDecide s.cfg.conda s.frame).k
              (hamDecide s.cfg.conda s.frame).pos
            chk := (hamDecide s.cfg.conda s.frame).chk }) := by
  rcases whenLengthOk_next h with h | ⟨hl, hr⟩
  · exact .inl h
  · cases hr; exact .inr ⟨hl, rfl⟩

theorem execConvEnc_next {inv : Bool} {len : Len} (h : execConvEnc inv len s = .next t) :
    (lengthOk s.cfg.nmax (.convEnc inv len) = false ∧ t = s.reject .invalidLength) ∨
      (lengthOk s.cfg.nmax (.convEnc inv len) = true ∧
        ∃ us, Memory.readBlock s.msg 0 len.toNat = .ok us ∧
          t = State.post .ok
            { s with
              sym := Memory.writeBlock s.sym 0 (convolve inv 0 us).1
              sr := (convolve inv 0 us).2 }) := by
  rcases whenLengthOk_next h with h | ⟨hl, hr⟩
  · exact .inl h
  · obtain ⟨us, hu, ht⟩ := withMsg_next hr
    cases ht
    exact .inr ⟨hl, us, hu, rfl⟩

theorem execVitDec_next {inv strict : Bool} {len : Len} (h : execVitDec inv strict len s = .next t) :
    (lengthOk s.cfg.nmax (.vitDec inv strict len) = false ∧ t = s.reject .invalidLength) ∨
      (lengthOk s.cfg.nmax (.vitDec inv strict len) = true ∧
        ∃ xs, Memory.readBlock s.sym 0 (2 * len.toNat) = .ok xs ∧
          t = finishDecode strict (buildTrellis inv xs) s) := by
  rcases whenLengthOk_next h with h | ⟨hl, hr⟩
  · exact .inl h
  · obtain ⟨xs, hx, ht⟩ := withSym_next hr
    cases ht
    exact .inr ⟨hl, xs, hx, rfl⟩

/-- Each way VIT_DEC can end (R124, R125, R126, R128). -/
theorem finishDecode_cases (strict : Bool) (cols : List (List Node)) (s : State) :
    (selectFinal (finalColumn cols) = none ∧ finishDecode strict cols s =
        State.post .noValidPath { s with trellis := cols, vitInfo := 0 }) ∨
      ∃ b, selectFinal (finalColumn cols) = some b ∧
        ((strict = true ∧ (nodeAt (finalColumn cols) b).pm ≠ 0 ∧ finishDecode strict cols s =
            State.post .noValidPath
              { s with
                trellis := cols
                vitInfo := vitInfoWord b (nodeAt (finalColumn cols) b).pm }) ∨
          ((strict = false ∨ (nodeAt (finalColumn cols) b).pm = 0) ∧ finishDecode strict cols s =
            State.post .ok
              { s with
                trellis := cols
                vitInfo := vitInfoWord b (nodeAt (finalColumn cols) b).pm
                msg := Memory.writeBlock s.msg 0 (decodedMessage cols b) })) := by
  unfold finishDecode
  dsimp only
  cases hsel : selectFinal (finalColumn cols) with
  | none => exact .inl ⟨rfl, rfl⟩
  | some b =>
    refine .inr ⟨b, rfl, ?_⟩
    by_cases hm : (nodeAt (finalColumn cols) b).pm = 0
    · exact .inr ⟨.inr hm, by simp [hm]⟩
    · cases strict with
      | false => exact .inr ⟨.inl rfl, by simp⟩
      | true => exact .inl ⟨rfl, hm, by simp [hm]⟩

/-! ## Host accesses -/

/-- The accesses that reach the block: aligned 32-bit ones inside the window (R36, R42). -/
theorem locate_ok {c : Config} {addr width off : Nat} (h : locate c addr width = .ok off) :
    width = 4 ∧ addr % 4 = 0 ∧ c.base ≤ addr ∧ addr < c.base + windowSize ∧ off = addr - c.base := by
  unfold locate at h
  split_ifs at h with h1 h2
  cases h
  omega

/-- An aligned 32-bit access at an offset of the window reaches that offset (R53). -/
theorem locate_of {c : Config} {off : Nat} (hb : c.base % 4 = 0) (h4 : off % 4 = 0)
    (h : off < windowSize) : locate c (c.base + off) 4 = .ok off := by
  have h1 : ¬ (4 ≠ 4 ∨ (c.base + off) % 4 ≠ 0) := by omega
  have h2 : ¬ (c.base + off < c.base ∨ c.base + windowSize ≤ c.base + off) := by omega
  simp only [locate, if_neg h1, if_neg h2, Nat.add_sub_cancel_left]

/-- A host read that answers leaves everything but the model's own read value and free-value count
as it was (R46). -/
theorem readAccess_next {tg : Target} (h : readAccess tg s = .next t) :
    (s.busy = true ∧ tg.isBuffer = true ∧ t = s.answerFree (dataMask s.cfg tg)) ∨
      ((s.busy && tg.isBuffer) = false ∧ ∃ v, readTarget s tg = .ok v ∧ t = s.answer v) := by
  unfold readAccess at h
  by_cases hb : (s.busy && tg.isBuffer) = true
  · rw [if_pos hb] at h
    cases h
    obtain ⟨h1, h2⟩ := Bool.and_eq_true_iff.1 hb
    exact .inl ⟨h1, h2, rfl⟩
  · rw [if_neg hb] at h
    cases hr : readTarget s tg with
    | error e => rw [hr] at h; cases h
    | ok v => rw [hr] at h; cases h; exact .inr ⟨by simpa using hb, v, rfl, rfl⟩

theorem hostRead_next {addr width : Nat} (h : hostRead addr width s = .next t) :
    ∃ off, locate s.cfg addr width = .ok off ∧ readAccess (targetAt off) s = .next t := by
  unfold hostRead at h
  cases hl : locate s.cfg addr width with
  | error e => rw [hl] at h; cases h
  | ok off => rw [hl] at h; exact ⟨off, rfl, h⟩

theorem writeAccess_next {off : Nat} {v : Word} (h : writeAccess off v s = .next t) :
    (s.busy && (targetAt off).isBuffer) = false ∧ t = writeTarget (targetAt off) v s := by
  unfold writeAccess at h
  split_ifs at h with hb
  cases h
  exact ⟨by simpa using hb, rfl⟩

theorem hostWrite_next {addr width : Nat} {v : Word} (h : hostWrite addr width v s = .next t) :
    ∃ off, locate s.cfg addr width = .ok off ∧ (s.busy && (targetAt off).isBuffer) = false ∧
      t = writeTarget (targetAt off) v s := by
  unfold hostWrite at h
  cases hl : locate s.cfg addr width with
  | error e => rw [hl] at h; cases h
  | ok off =>
    rw [hl] at h
    obtain ⟨h1, h2⟩ := writeAccess_next h
    exact ⟨off, rfl, h1, h2⟩

/-- The three things a CMD write does (R71 to R73). -/
theorem issue_cases (w : Word) (s : State) :
    (s.busy = true ∧ issue w s = s.overrun) ∨
      (s.busy = false ∧
        ((∃ e, decode w = .error e ∧ issue w s = s.reject .illegalCommand) ∨
          ∃ i, decode w = .ok i ∧
            ((lengthOk s.cfg.nmax i = false ∧ issue w s = s.reject .invalidLength) ∨
              (lengthOk s.cfg.nmax i = true ∧ issue w s = s.accept w)))) := by
  unfold issue
  cases hb : s.busy with
  | true => exact .inl ⟨rfl, rfl⟩
  | false =>
    refine .inr ⟨rfl, ?_⟩
    cases hd : decode w with
    | error e => exact .inl ⟨e, rfl, rfl⟩
    | ok i =>
      refine .inr ⟨i, rfl, ?_⟩
      cases hl : lengthOk s.cfg.nmax i with
      | false => exact .inl ⟨rfl, by simp [hl]⟩
      | true => exact .inr ⟨rfl, by simp [hl]⟩

/-! ## The engine and the step -/

theorem engineTurn_next (h : engineTurn s = .next t) :
    (s.busy = false ∧ t = s) ∨ (s.busy = true ∧ ∃ i, fetch s = .ok i ∧ exec i s = .next t) := by
  unfold engineTurn at h
  cases hb : s.busy with
  | false => rw [hb] at h; cases h; exact .inl ⟨rfl, rfl⟩
  | true =>
    rw [hb, if_pos rfl] at h
    cases hf : fetch s with
    | error e => rw [hf] at h; cases h
    | ok i => rw [hf] at h; exact .inr ⟨rfl, i, rfl, h⟩

/-- Everything a step that answers a next state can do. -/
theorem step_next (h : step s = .next t) :
    (s.inputs = [] ∧ engineTurn s = .next t) ∨
      ∃ rest, (∃ addr width, s.inputs = .read addr width :: rest ∧
            hostRead addr width { s with inputs := rest } = .next t) ∨
          (∃ addr width v, s.inputs = .write addr width v :: rest ∧
            hostWrite addr width v { s with inputs := rest } = .next t) ∨
          (s.inputs = .engine :: rest ∧ engineTurn { s with inputs := rest } = .next t) ∨
          (s.inputs = .reset :: rest ∧ t = State.resetInput { s with inputs := rest }) := by
  unfold step at h
  split at h
  · exact .inl ⟨‹_›, h⟩
  · exact .inr ⟨_, .inl ⟨_, _, ‹_›, h⟩⟩
  · exact .inr ⟨_, .inr (.inl ⟨_, _, _, ‹_›, h⟩)⟩
  · exact .inr ⟨_, .inr (.inr (.inl ⟨‹_›, h⟩))⟩
  · cases h; exact .inr ⟨_, .inr (.inr (.inr ⟨‹_›, rfl⟩))⟩

end Sys2Proof.Machine
end

