-- ==== Sys2Proof/Laws/PerInstr.lean ====
section
/-! SUPPORT. The family RowWord: the word of each command matches its row of R58 under the row's
mask. -/

namespace Sys2Proof.Laws.RowWord

/-- The mask and the match of a command's row (R58). -/
def row : Instr → Word × Word
  | .hamEnc _ => (0x0000FFFF, 0x00000001)
  | .hamDec _ => (0x0000FFFF, 0x00000002)
  | .convEnc _ _ => (0x0000FFEF, 0x00000003)
  | .vitDec _ _ _ => (0x0000FFCF, 0x00000004)

/-- The encoder's word agrees with the row of its mnemonic. -/
def Statement (i : Instr) : Prop := encode i &&& (row i).1 = (row i).2

/-- A word under a mask that keeps no bit of LEN: the lower half decides. -/
theorem masked_commandWord (op : BitVec 4) (inv strict : Bool) (len : Len) (mask : Word)
    (h : ∀ j < 32, 16 ≤ j → mask.getLsbD j = false) :
    commandWord op inv strict len &&& mask = commandWord op inv strict 0 &&& mask := by
  refine BitVec.eq_of_getLsbD_eq fun j hj => ?_
  rw [BitVec.getLsbD_and, BitVec.getLsbD_and, getLsbD_commandWord, getLsbD_commandWord]
  by_cases h16 : 16 ≤ j
  · simp [h j hj h16]
  · simp [h16]

theorem hamEnc (len : Len) : Statement (.hamEnc len) :=
  (masked_commandWord 1 false false len 0x0000FFFF (by decide)).trans (by decide : _ = 0x00000001#32)

theorem hamDec (len : Len) : Statement (.hamDec len) :=
  (masked_commandWord 2 false false len 0x0000FFFF (by decide)).trans (by decide : _ = 0x00000002#32)

theorem convEnc (inv : Bool) (len : Len) : Statement (.convEnc inv len) :=
  (masked_commandWord 3 inv false len 0x0000FFEF (by decide)).trans
    (by cases inv <;> decide : _ = 0x00000003#32)

theorem vitDec (inv strict : Bool) (len : Len) : Statement (.vitDec inv strict len) :=
  (masked_commandWord 4 inv strict len 0x0000FFCF (by decide)).trans
    (by cases inv <;> cases strict <;> decide : _ = 0x00000004#32)

end Sys2Proof.Laws.RowWord
end

