-- ==== Sys2Proof/Tests/Slice0.lean ====
section
/-! SUPPORT. Tests of the model against the spec's words and vectors (spec/30_encoding.md R79,
spec/95_test_vectors.md), and for each statement with hypotheses a state that meets them. -/

namespace Sys2Proof.Tests

open Sys2Proof.Machine Sys2Proof.Claims

/-! ## Well-formedness: each check refuses an ill-formed term (R59) -/

theorem test_wellFormed_refuses_hamEnc_76 : ¬ (Instr.hamEnc 76).WellFormed 1024 := by decide
theorem test_wellFormed_refuses_hamDec_86 : ¬ (Instr.hamDec 86).WellFormed 1024 := by decide
theorem test_wellFormed_refuses_convEnc_0 : ¬ (Instr.convEnc false 0).WellFormed 1024 := by decide
theorem test_wellFormed_refuses_convEnc_past_nmax : ¬ (Instr.convEnc false 1025).WellFormed 1024 := by
  decide
theorem test_wellFormed_refuses_vitDec_0 : ¬ (Instr.vitDec true true 0).WellFormed 1024 := by decide
theorem test_wellFormed_refuses_vitDec_past_nmax : ¬ (Instr.vitDec true true 1025).WellFormed 1024 := by
  decide
theorem test_wellFormed_accepts : (Instr.hamEnc 77).WellFormed 1024 ∧ (Instr.hamDec 85).WellFormed 1024 ∧
    (Instr.convEnc true 1024).WellFormed 1024 ∧ (Instr.vitDec true true 1).WellFormed 1024 := by decide

/-! ## Decoding: words written out from R58 and R79, and the rejected ones of spec/95 section 6 -/

/-- LEN = 77, RSV = 0, STRICT = 0, INV = 0, OP = 0001. -/
theorem test_decode_hamEnc : decode 0b0000000001001101_0000000000_0_0_0001#32 = .ok (.hamEnc 77) := by
  decide
/-- LEN = 85, OP = 0010. -/
theorem test_decode_hamDec : decode 0b0000000001010101_0000000000_0_0_0010#32 = .ok (.hamDec 85) := by
  decide
/-- LEN = 4, INV = 1, OP = 0011. -/
theorem test_decode_convEnc : decode 0b0000000000000100_0000000000_0_1_0011#32 = .ok (.convEnc true 4) := by
  decide
/-- LEN = 4, STRICT = 1, INV = 0, OP = 0100. -/
theorem test_decode_vitDec : decode 0b0000000000000100_0000000000_1_0_0100#32 = .ok (.vitDec false true 4) := by
  decide
/-- V-E12: VIT_DEC 4, INV, STRICT. -/
theorem test_decode_vitDec_both : decode 0x00040034 = .ok (.vitDec true true 4) := by decide
/-- V-E4, V-E5. -/
theorem test_decode_reservedOp : decode 0x00000000 = .error (.reservedOp 0) ∧
    decode 0x00040005 = .error (.reservedOp 5) := by decide
/-- V-E6, V-E10, V-E11. -/
theorem test_decode_flags_and_rsv : decode 0x004D0011 = .error .invNotAllowed ∧
    decode 0x00040023 = .error .strictNotAllowed ∧ decode 0x00040044 = .error (.reservedBits 1) := by decide
/-- The byte lanes of 0x004D0001, lowest first (R43). -/
theorem test_decodeBytes : decodeBytes [0x01, 0x00, 0x4D, 0x00] = .ok (.hamEnc 77) := by decide
theorem test_decodeTableWord : decodeTableWord 32 0x00000001 = some (.hamEnc 0) ∧
    decodeTableWord 16 0x00000002 = some (.hamDec 0) ∧
    decodeTableWord 32 0x00050013 = some (.convEnc true 5) ∧
    decodeTableWord 32 0x00050034 = some (.vitDec true true 5) := by decide
theorem test_encode_words : encode (.hamEnc 77) = 0x004D0001 ∧ encode (.hamDec 85) = 0x00550002 ∧
    encode (.convEnc true 4) = 0x00040013 ∧ encode (.vitDec false true 4) = 0x00040024 := by decide

/-! ## Small states -/

/-- A build with NMAX = 40 (V-M8) and the window at 0x8000. -/
def cfg40 (c : CondaVariant) : Config := { nmax := 40, base := 0x8000, conda := c }

/-- A block of that build with these turns waiting. -/
def idle (inputs : List Input) : State := { State.resetFor (cfg40 .one) with inputs := inputs }

/-- The block with VIT_DEC 4 in flight. -/
def busyWith (inputs : List Input) : State :=
  { idle inputs with busy := true, cur := { op := 4, inv := false, strict := false, len := 4 } }

/-- A block with a frame, given as the three words a host reads. -/
def withFrame (c : CondaVariant) (w0 w1 w2 : Nat) : State :=
  { State.resetFor (cfg40 c) with frame := BitVec.ofNat 85 (w0 + w1 * 2 ^ 32 + w2 * 2 ^ 64) }

/-- A block with the first `n` codes of SYM taken from the word of a host write. -/
def withSymWord (n : Nat) (w : Word) : State :=
  { idle [] with sym := Memory.writeBlock [] 0 (unpackSymbols n w) }

/-- A block with MSG[0..3] = 1, 1, 0, 1. -/
def withMessage : State := { idle [] with msg := [(0, true), (1, true), (2, false), (3, true)] }

/-- The next state of an outcome. -/
def nextOf (o : Host.Outcome State Fault Refusal) : Option State :=
  match o with
  | .next t => some t
  | _ => none

/-- A field of the next state. -/
def field {α : Type} (o : Host.Outcome State Fault Refusal) (f : State → α) : Option α :=
  (nextOf o).map f

/-! ## The commands on vectors of spec/95 -/

/-- V-H3: FRAME2 = 0x001C1555, OK. -/
theorem test_hamEnc_alt :
    field (exec (.hamEnc 77) (withFrame .one 0x55555555 0x55555555 0x00001555))
      (fun t => (frameWord t.frame 2, t.result)) = some (0x001C1555, .ok) := by decide +kernel
/-- V-H9: the old parity bits are ignored. -/
theorem test_hamEnc_old_parity :
    field (exec (.hamEnc 77) (withFrame .one 0x55555555 0x55555555 0x001FF555))
      (fun t => frameWord t.frame 2) = some 0x001C1555 := by decide +kernel
/-- V-H24: a miscorrection; HAM_SYN = 0x004907C8, FRAME0 = 0x55554576. -/
theorem test_hamDec_triple :
    field (exec (.hamDec 85) (withFrame .one 0x55555576 0x55555555 0x001C1555))
      (fun t => (frameWord t.frame 0, t.hamSyn, t.result)) =
      some (0x55554576, 0x004907C8, .corrected) := by decide +kernel
/-- V-H14: under SIX the error at position 65 stays, HAM_SYN = 0x000000BF. -/
theorem test_hamDec_six :
    field (exec (.hamDec 85) (withFrame .six 0x55455555 0x55555555 0x001C1555))
      (fun t => (frameWord t.frame 0, t.hamSyn, t.result)) =
      some (0x55455555, 0x000000BF, .valid) := by decide +kernel
/-- V-C2: CONV_ENC 4, INV gives 0x7557 and the register value 44. -/
theorem test_convEnc_inv :
    field (exec (.convEnc true 4) withMessage)
      (fun t => (packSymbols (t.sym.map Prod.snd), t.sr, t.result)) = some (0x00007557, 44, .ok) := by
  decide +kernel
/-- V-C9: codes beyond 2N are not written. -/
theorem test_convEnc_keeps_rest :
    field (exec (.convEnc false 4)
      { withMessage with sym := Memory.writeBlock [] 0 (unpackSymbols 16 0xFFFFFFFF) })
      (fun t => packSymbols (t.sym.map Prod.snd)) = some 0xFFFFFDDF := by decide +kernel
/-- V-V1: the clean stream, state 44, metric 0. -/
theorem test_vitDec_clean :
    field (exec (.vitDec false false 4) (withSymWord 8 0x0000FDDF))
      (fun t => (t.msg.map Prod.snd, t.vitInfo, t.result)) =
      some ([true, true, false, true], 0x0000002C, .ok) := by decide +kernel
/-- V-V8: STRICT rejects metric 1 and writes no message. -/
theorem test_vitDec_strict :
    field (exec (.vitDec false true 1) (withSymWord 2 0x00000007))
      (fun t => (t.msg, t.vitInfo, t.result)) = some ([], 0x00010000, .noValidPath) := by decide +kernel

/-! ## The window and the issue of commands -/

/-- V-M3: FRAME2[31:21] ignore writes. -/
theorem test_write_frame2 :
    field (step (idle [.write 0x8018 4 0xFFFFFFFF])) (fun t => frameWord t.frame 2) = some 0x001FFFFF := by
  decide +kernel
/-- V-M8: with NMAX = 40 a write of MSG[1] sets the elements 32..39 only. -/
theorem test_write_msg_word :
    field (step (idle [.write 0x9004 4 0xFFFFFFFF])) (fun t => t.msg.map Prod.fst) =
      some [32, 33, 34, 35, 36, 37, 38, 39] := by decide +kernel
/-- V-M10: the codes of 0x0000FDDF. -/
theorem test_write_sym_word :
    field (step (idle [.write 0xA000 4 0x0000FDDF])) (fun t => (t.sym.map Prod.snd).take 9) =
      some [3, 3, 1, 3, 1, 3, 3, 3, 0] := by decide +kernel
/-- V-M7 with NMAX = 40: PARAM shows CONDA_SIX. -/
theorem test_read_param_six : paramWord (cfg40 .six) = 0x00010028 := by decide
/-- V-M2: MSG[0] read after reset. -/
theorem test_read_unwritten :
    step (idle [.read 0x9000 4]) = .fault (.unwrittenRead .msg 0) := by rfl
/-- V-M12: FRAME1 written while busy. -/
theorem test_write_busy : step (busyWith [.write 0x8014 4 0]) = .fault (.hostHazard 0x14) := by rfl
/-- V-E1: accept, STATUS = 0x10. -/
theorem test_accept :
    field (step (idle [.write 0x8000 4 0x004D0001])) statusWord = some 0x00000010 := by decide +kernel
/-- V-E7: illegal before the length. -/
theorem test_reject_illegal_first :
    field (step (idle [.write 0x8000 4 0x004C0011])) statusWord = some 0x00000007 := by decide +kernel
/-- V-E9 with NMAX = 40: CONV_ENC 41 is of the wrong length. -/
theorem test_reject_length :
    field (step (idle [.write 0x8000 4 0x00290003])) statusWord = some 0x00000006 := by decide +kernel
/-- V-E14: OVR, with BUSY and RESULT as they were. -/
theorem test_overrun :
    field (step (busyWith [.write 0x8000 4 0x004D0001])) statusWord = some 0x00000030 := by decide +kernel
/-- The first command after reset runs in one step from where the step fetches. -/
theorem test_first_command :
    field (step (State.reset.withFetchWord 32 0x00550002)) statusWord = some 0x00000002 := by decide +kernel

/-! ## Witnesses: states that meet the hypotheses of the statements -/

theorem cfg40_wf (c : CondaVariant) : (cfg40 c).wf := by cases c <;> decide

theorem idle_good (inputs : List Input) : (idle inputs).Good :=
  ⟨cfg40_wf .one, Memory.wf_nil _, Memory.wf_nil _, (by decide : (idle []).inFlightOk = true),
    (by decide : (idle []).hamSynOk = true), (by decide : (idle []).vitInfoOk = true)⟩

theorem busy_fetch (inputs : List Input) : fetch (busyWith inputs) = .ok (.vitDec false false 4) :=
  (by decide : decode (Cur.word { op := 4, inv := false, strict := false, len := 4 }) = _)

theorem busy_good (inputs : List Input) : (busyWith inputs).Good :=
  ⟨cfg40_wf .one, Memory.wf_nil _, Memory.wf_nil _,
    (by unfold State.inFlightOk; rw [busy_fetch]; rfl), (by decide : (busyWith []).hamSynOk = true), (by decide : (busyWith []).vitInfoOk = true)⟩

/-- An idle block of a legal build at address 0x8000, with these turns waiting. -/
theorem idle_meets (inputs : List Input) : (idle inputs).cfg.wf ∧ (idle inputs).cfg.base = 0x8000 ∧
    (idle inputs).cfg.nmax = 40 ∧ (idle inputs).busy = false ∧ (idle inputs).inputs = inputs :=
  ⟨cfg40_wf .one, rfl, rfl, rfl, rfl⟩

/-- The same block with a command in flight. -/
theorem busy_meets (inputs : List Input) : (busyWith inputs).cfg.wf ∧ (busyWith inputs).cfg.base = 0x8000 ∧
    (busyWith inputs).cfg.nmax = 40 ∧ (busyWith inputs).busy = true ∧ (busyWith inputs).inputs = inputs :=
  ⟨cfg40_wf .one, rfl, rfl, rfl, rfl⟩

theorem witness_EncodeOfDecode : decode 0xFFFF0034 = .ok (.vitDec true true 0xFFFF) := by decide

/-- LEN at its upper bound 40. -/
theorem witness_CmdWriteAccepts :
    let s := idle [.write 0x8000 4 0x00280003]
    s.cfg.wf ∧ s.busy = false ∧ s.inputs = .write s.cfg.base 4 0x00280003 :: [] ∧
      decode 0x00280003 = .ok (.convEnc false 40) ∧ (Instr.convEnc false 40).WellFormed s.cfg.nmax :=
  ⟨cfg40_wf .one, rfl, rfl, by decide, by decide⟩

/-- The first clause: an illegal word. -/
theorem witness_CmdWriteRejects_illegal :
    let s := idle [.write 0x8000 4 0x004D0011]
    s.cfg.wf ∧ s.busy = false ∧ s.inputs = .write s.cfg.base 4 0x004D0011 :: [] ∧
      ∃ e, decode 0x004D0011 = .error e := ⟨cfg40_wf .one, rfl, rfl, .invNotAllowed, by decide⟩

/-- The second clause: a legal word with LEN one past the bound. -/
theorem witness_CmdWriteRejects_length :
    let s := idle [.write 0x8000 4 0x00290003]
    s.cfg.wf ∧ s.busy = false ∧ s.inputs = .write s.cfg.base 4 0x00290003 :: [] ∧
      decode 0x00290003 = .ok (.convEnc false 41) ∧ ¬ (Instr.convEnc false 41).WellFormed s.cfg.nmax :=
  ⟨cfg40_wf .one, rfl, rfl, by decide, by decide⟩

theorem witness_CmdWriteWhileBusyOnlySetsOvr :
    let s := busyWith [.write 0x8000 4 0]
    s.cfg.wf ∧ s.busy = true ∧ s.inputs = .write s.cfg.base 4 0 :: [] := ⟨cfg40_wf .one, rfl, rfl⟩

theorem witness_WrongLengthIsRejectedByTheMeaning :
    ¬ (Instr.hamEnc 78).WellFormed (idle []).cfg.nmax ∧ ¬ (Instr.hamDec 84).WellFormed (idle []).cfg.nmax ∧
      ¬ (Instr.convEnc true 0).WellFormed (idle []).cfg.nmax ∧
      ¬ (Instr.vitDec true true 41).WellFormed (idle []).cfg.nmax := by decide

/-- Both clauses: the engine's turn waits, and no turn waits. -/
theorem witness_EngineTurnRunsTheCommandInCur :
    (busyWith [.engine]).busy = true ∧ (busyWith [.engine]).inputs = [.engine] ∧
      (busyWith []).inputs = [] ∧ decode (busyWith []).cur.word = .ok (.vitDec false false 4) :=
  ⟨rfl, rfl, rfl, by decide⟩

theorem witness_FetchedWordIsRunNext : decodeTableWord 32 0x004D0001 = some (.hamEnc 77) := by decide

theorem witness_AcceptedCommandIsTheOneRun :
    (idle [.write 0x8000 4 0x00010004, .engine]).cfg.wf ∧
      (idle [.write 0x8000 4 0x00010004, .engine]).busy = false ∧
      (idle [.write 0x8000 4 0x00010004, .engine]).inputs =
        .write ((idle []).cfg.base) 4 0x00010004 :: .engine :: [] ∧
      decode 0x00010004 = .ok (.vitDec false false 1) ∧
      (Instr.vitDec false false 1).WellFormed (idle []).cfg.nmax :=
  ⟨cfg40_wf .one, rfl, rfl, by decide, by decide⟩

theorem witness_IdleEngineTurnPasses :
    (idle []).busy = false ∧ (idle []).inputs = [] ∧ (idle [.engine]).inputs = [.engine] :=
  ⟨rfl, rfl, rfl⟩

theorem witness_ResetInputRestoresResetValues : (busyWith [.reset]).inputs = [.reset] := rfl

theorem witness_RegistersReadZeroAfterReset :
    (cfg40 .six).wf ∧ 0x018 ∈ [0x004, 0x008, 0x00C, 0x010, 0x014, 0x018] := ⟨cfg40_wf .six, by decide⟩

theorem witness_ResetIsGood : (cfg40 .six).wf := cfg40_wf .six

theorem witness_StepKeepsGood :
    (busyWith [.write 0x8000 4 0]).Good ∧ ∃ t, step (busyWith [.write 0x8000 4 0]) = .next t :=
  ⟨busy_good _, _, rfl⟩

theorem witness_StepKeepsBuildParameters : ∃ t, step (idle [.reset]) = .next t := ⟨_, rfl⟩

/-- A read of the window's last word, which completes; a write that is a hazard; a host read that raises
UnwrittenRead on the last element of MSG; and a VIT_DEC in flight that raises it on SYM[0]. -/
theorem witness_SupportedTurnsHaveAnEffect :
    ((idle [.read 0xBFFC 4]).Good ∧ Supported (cfg40 .one) (.read 0xBFFC 4)) ∧
      ((busyWith [.write 0x8010 4 0]).Good ∧ Supported (cfg40 .one) (.write 0x8010 4 0)) ∧
      ((idle [.read 0x9004 4]).Good ∧ Supported (cfg40 .one) (.read 0x9004 4) ∧
        TurnReadsMsg (idle [.read 0x9004 4]) 39 ∧ Memory.read (idle []).msg 39 = none) ∧
      ((busyWith []).Good ∧ TurnReadsSym (busyWith []) 0 ∧
        step (busyWith []) = .fault (.unwrittenRead .sym 0)) :=
  ⟨⟨idle_good _, by unfold Supported cfg40; decide⟩, ⟨busy_good _, by unfold Supported cfg40; decide⟩,
    ⟨idle_good _, by unfold Supported cfg40; decide, .inl ⟨rfl, [], rfl⟩, rfl⟩,
    busy_good _, .inr ⟨false, false, 4, ⟨rfl, .inl rfl, by decide⟩, by decide⟩, rfl⟩

theorem witness_StatusChangesOnlyAtTheseEvents :
    ∃ t, step (busyWith [.write 0x8000 4 0]) = .next t ∧
      t.ovr ≠ (busyWith [.write 0x8000 4 0]).ovr := ⟨_, rfl, by decide⟩

/-- HAM_DEC in flight on the frame of reset. -/
theorem witness_AcceptedCommandEndsInItsOwnCode :
    ∃ s t, s.Good ∧ s.busy = true ∧ fetch s = .ok (.hamDec 85) ∧ exec (.hamDec 85) s = .next t :=
  ⟨{ idle [] with busy := true, cur := { op := 2, inv := false, strict := false, len := 85 } }, _,
    ⟨cfg40_wf .one, by decide, by decide, by decide, by decide, by decide⟩, rfl, by decide, rfl⟩

/-- Both clauses, at k = 2. -/
theorem witness_FrameRegistersPackTheFrame :
    (let s := idle [.write 0x8018 4 1];
      s.cfg.wf ∧ s.busy = false ∧ s.inputs = .write (s.cfg.base + (0x010 + 4 * 2)) 4 1 :: []) ∧
    let s := idle [.read 0x8018 4]
    s.cfg.wf ∧ s.busy = false ∧ s.inputs = .read (s.cfg.base + (0x010 + 4 * 2)) 4 :: [] :=
  ⟨⟨cfg40_wf .one, rfl, rfl⟩, cfg40_wf .one, rfl, rfl⟩

/-- The write clause at the last word; the read clause at the word that NMAX = 40 cuts, with its eight
elements written. -/
theorem witness_MsgWindowPacksBits :
    (let s := idle [.write 0x97FC 4 1];
      s.cfg.wf ∧ s.busy = false ∧ s.inputs = .write (s.cfg.base + (0x1000 + 4 * 511)) 4 1 :: []) ∧
    let s := { idle [.read 0x9004 4] with msg := Memory.writeBlock [] 32 (List.replicate 8 true) }
    s.cfg.wf ∧ s.busy = false ∧ s.inputs = .read (s.cfg.base + (0x1000 + 4 * 1)) 4 :: [] ∧
      ∀ b < 32, 32 * 1 + b < s.cfg.nmax → (Memory.read s.msg (32 * 1 + b)).isSome :=
  ⟨⟨cfg40_wf .one, rfl, rfl⟩, cfg40_wf .one, rfl, rfl, by decide⟩

/-- The write clause at the last word; the read clause at word 4, the last one with elements. -/
theorem witness_SymWindowPacksCodes :
    (let s := idle [.write 0xBFFC 4 1];
      s.cfg.wf ∧ s.busy = false ∧ s.inputs = .write (s.cfg.base + (0x2000 + 4 * 2047)) 4 1 :: []) ∧
    let s := { idle [.read 0xA010 4] with sym := Memory.writeBlock [] 64 (List.replicate 16 1) }
    s.cfg.wf ∧ s.busy = false ∧ s.inputs = .read (s.cfg.base + (0x2000 + 4 * 4)) 4 :: [] ∧
      ∀ f < 16, 16 * 4 + f < 2 * s.cfg.nmax → (Memory.read s.sym (16 * 4 + f)).isSome :=
  ⟨⟨cfg40_wf .one, rfl, rfl⟩, cfg40_wf .one, rfl, rfl, by decide⟩

/-- Both clauses, at the last element of each buffer. -/
theorem witness_HostReadOfUnwrittenElementFaults :
    (let s := idle [.read 0x9004 4];
      s.cfg.wf ∧ s.busy = false ∧ s.inputs = .read (s.cfg.base + (0x1000 + 4 * 1)) 4 :: [] ∧
        39 / 32 = 1 ∧ 39 < s.cfg.nmax ∧ Memory.read s.msg 39 = none) ∧
    let s := idle [.read 0xA010 4]
    s.cfg.wf ∧ s.busy = false ∧ s.inputs = .read (s.cfg.base + (0x2000 + 4 * 4)) 4 :: [] ∧
      79 / 16 = 4 ∧ 79 < 2 * s.cfg.nmax ∧ Memory.read s.sym 79 = none :=
  ⟨⟨cfg40_wf .one, rfl, rfl, by decide, by decide, rfl⟩, cfg40_wf .one, rfl, rfl, by decide, by decide, rfl⟩

/-- At the first FRAME register and at the last offset of the window. -/
theorem witness_BufferWordReadsBackAsWritten :
    (let s := idle [.write 0x8010 4 7, .read 0x8010 4];
      s.cfg.wf ∧ s.busy = false ∧ IsBufferOffset 0x010 ∧ 0x010 % 4 = 0 ∧
        s.inputs = .write (s.cfg.base + 0x010) 4 7 :: .read (s.cfg.base + 0x010) 4 :: []) ∧
    let s := idle [.write 0xBFFC 4 7, .read 0xBFFC 4]
    s.cfg.wf ∧ s.busy = false ∧ IsBufferOffset 0x3FFC ∧ 0x3FFC % 4 = 0 ∧
      s.inputs = .write (s.cfg.base + 0x3FFC) 4 7 :: .read (s.cfg.base + 0x3FFC) 4 :: [] :=
  ⟨⟨cfg40_wf .one, rfl, by unfold IsBufferOffset; decide, rfl, rfl⟩,
    cfg40_wf .one, rfl, by unfold IsBufferOffset; decide, rfl, rfl⟩

/-- Both clauses. -/
theorem witness_StatusReadsItsFields :
    (let s := idle [.read 0x8004 4];
      s.cfg.wf ∧ s.inputs = .read (s.cfg.base + 0x004) 4 :: []) ∧
    let s := idle [.write 0x8004 4 9]
    s.cfg.wf ∧ s.inputs = .write (s.cfg.base + 0x004) 4 9 :: [] :=
  ⟨⟨cfg40_wf .one, rfl⟩, cfg40_wf .one, rfl⟩

/-- Both clauses. -/
theorem witness_ParamReadsTheBuild :
    (let s := idle [.read 0x801C 4];
      s.cfg.wf ∧ s.inputs = .read (s.cfg.base + 0x01C) 4 :: []) ∧
    let s := idle [.write 0x801C 4 9]
    s.cfg.wf ∧ s.inputs = .write (s.cfg.base + 0x01C) 4 9 :: [] :=
  ⟨⟨cfg40_wf .one, rfl⟩, cfg40_wf .one, rfl⟩

/-- Both clauses, at the first and the last reserved offset. -/
theorem witness_ReportRegistersAndReservedOffsets :
    (let s := busyWith [.read 0x8020 4];
      s.cfg.wf ∧ IsReservedOffset 0x020 ∧ s.inputs = .read (s.cfg.base + 0x020) 4 :: []) ∧
    let s := idle [.write 0x9FFC 4 9]
    s.cfg.wf ∧ IsReservedOffset 0x1FFC ∧ 0x1FFC % 4 = 0 ∧
      s.inputs = .write (s.cfg.base + 0x1FFC) 4 9 :: [] :=
  ⟨⟨cfg40_wf .one, by unfold IsReservedOffset; decide, rfl⟩,
    cfg40_wf .one, by unfold IsReservedOffset; decide, rfl, rfl⟩

theorem witness_HostReadHasNoSideEffect :
    (busyWith [.read 0x8010 4]).inputs = [.read 0x8010 4] ∧ ∃ t, step (busyWith [.read 0x8010 4]) = .next t :=
  ⟨rfl, _, rfl⟩

/-- The three clauses: the last MSG word, CMD, and the reserved offset after the MSG window. -/
theorem witness_HostWritesWhileBusy :
    (let s := busyWith [.write 0x97FC 4 1];
      s.cfg.wf ∧ s.busy = true ∧ IsBufferOffset 0x17FC ∧ s.inputs = .write (s.cfg.base + 0x17FC) 4 1 :: []) ∧
    (let s := busyWith [.write 0x8000 4 1];
      s.cfg.wf ∧ s.busy = true ∧ s.inputs = .write (s.cfg.base + 0x000) 4 1 :: []) ∧
    let s := busyWith [.write 0x9800 4 1]
    s.cfg.wf ∧ s.busy = true ∧ ¬ IsBufferOffset 0x1800 ∧ s.inputs = .write (s.cfg.base + 0x1800) 4 1 :: [] :=
  ⟨⟨cfg40_wf .one, rfl, by unfold IsBufferOffset; decide, rfl⟩, ⟨cfg40_wf .one, rfl, rfl⟩,
    cfg40_wf .one, rfl, by unfold IsBufferOffset; decide, rfl⟩

/-- A buffer's word with reserved bits, and each register. -/
theorem witness_HostReadsWhileBusy :
    (let s := busyWith [.read 0x8018 4];
      s.cfg.wf ∧ s.busy = true ∧ IsBufferOffset 0x018 ∧ isElementBit s.cfg.nmax 0x018 21 = false ∧
        s.inputs = .read (s.cfg.base + 0x018) 4 :: []) ∧
    ∀ off ∈ [0x004, 0x008, 0x00C, 0x01C],
      let s := busyWith [.read (0x8000 + off) 4]
      s.cfg.wf ∧ s.busy = true ∧ off % 4 = 0 ∧ s.inputs = .read (s.cfg.base + off) 4 :: [] :=
  ⟨⟨cfg40_wf .one, rfl, by unfold IsBufferOffset; decide, by decide, rfl⟩,
    fun off h => ⟨cfg40_wf .one, rfl, by revert off; decide, rfl⟩⟩

theorem witness_UnsupportedAccessesAreRefused :
    (2 ≠ 4 ∨ 0x8000 % 4 ≠ 0) ∧ (4 ≠ 4 ∨ 0x8002 % 4 ≠ 0) ∧
      (idle [.read 0x8000 2]).inputs = [.read 0x8000 2] ∧
      (idle [.write 0x8002 4 1]).inputs = [.write 0x8002 4 1] := ⟨by decide, by decide, rfl, rfl⟩

/-- A frame with stored bit 0, and one with stored bit 20, of an encoded frame flipped. -/
theorem witness_SingleDataErrorIsCorrected :
    (∃ s : State, s.frame = flipped (encodeFrame 5) 0 ∧ s.cfg.conda = .one) ∧
      ∃ s : State, s.frame = flipped (encodeFrame 5) 20 ∧ s.cfg.conda = .six :=
  ⟨⟨{ idle [] with frame := flipped (encodeFrame 5) 0 }, rfl, rfl⟩,
    ⟨{ State.resetFor (cfg40 .six) with frame := flipped (encodeFrame 5) 20 }, rfl, rfl⟩⟩

theorem witness_SingleParityErrorLeavesTheFrame :
    (∃ s : State, s.frame = flipped (encodeFrame 5) (84 - 7)) ∧
      ∃ s : State, s.frame = flipped (encodeFrame 5) 84 :=
  ⟨⟨{ idle [] with frame := flipped (encodeFrame 5) (84 - 7) }, rfl⟩,
    ⟨{ idle [] with frame := flipped (encodeFrame 5) 84 }, rfl⟩⟩

theorem witness_DoubleErrorIsUncorrectable :
    ∃ s : State, s.frame = flipped (flipped (encodeFrame 5) 0) 84 :=
  ⟨{ idle [] with frame := flipped (flipped (encodeFrame 5) 0) 84 }, rfl⟩

theorem withMessage_holds : HoldsFromZero withMessage.msg [true, true, false, true] := by
  unfold HoldsFromZero; decide

theorem witness_ConvEncEncodesTheMessage :
    (Instr.convEnc true 4).WellFormed withMessage.cfg.nmax ∧ [true, true, false, true].length = (4 : Len).toNat ∧
      HoldsFromZero withMessage.msg [true, true, false, true] := ⟨by decide, by decide, withMessage_holds⟩

theorem witness_InversionFlipsTheSecondSymbols :
    (Instr.convEnc false 4).WellFormed withMessage.cfg.nmax ∧
      ∀ k < (4 : Len).toNat, (Memory.read withMessage.msg k).isSome := by decide

theorem witness_ConvolutionalCodeIsLinearAndInjective :
    [true, false].length = [true, true].length ∧
      (convolve true 0 [true, false]).1 = (convolve true 0 [true, false]).1 := ⟨rfl, rfl⟩

/-- Both clauses: MSG[4] and SYM[0] are not written. -/
theorem witness_CommandsFaultOnUnwrittenOperands :
    ((Instr.convEnc false 5).WellFormed withMessage.cfg.nmax ∧ 4 < (5 : Len).toNat ∧
      Memory.read withMessage.msg 4 = none ∧ ∀ j < 4, (Memory.read withMessage.msg j).isSome) ∧
      (Instr.vitDec false false 1).WellFormed withMessage.cfg.nmax ∧ 0 < 2 * (1 : Len).toNat ∧
      Memory.read withMessage.sym 0 = none := by decide

/-- Received symbols 01, 11 for one step (V-V7, V-V8): STRICT makes it fail, without STRICT it is OK. -/
theorem received_holds : HoldsFromZero (withSymWord 2 0x00000007).sym [0b11, 0b01] := by
  unfold HoldsFromZero; decide

theorem witness_VitDecCompletes :
    (withSymWord 2 0x00000007).cfg.wf ∧
      (Instr.vitDec false true 1).WellFormed (withSymWord 2 0x00000007).cfg.nmax ∧
      [0b11#2, 0b01#2].length = 2 * (1 : Len).toNat ∧
      HoldsFromZero (withSymWord 2 0x00000007).sym [0b11, 0b01] :=
  ⟨cfg40_wf .one, by decide, by decide, received_holds⟩

/-- The tie of V-V7 and V-V15: states 0 and 32 of column 1 have metric 1, and the lower index is selected (R124). -/
theorem test_vitDec_final_tie :
    field (exec (.vitDec false false 1) (withSymWord 2 0x00000007)) (fun t => t.vitInfo) = some 0x00010000 ∧
      (nodeOf (buildTrellis false [0b11, 0b01]) 1 0).pm = 1 ∧
      (nodeOf (buildTrellis false [0b11, 0b01]) 1 32).pm = 1 := by decide +kernel

theorem witness_VitDecFindsALeastDistanceMessage :
    (withSymWord 2 0x00000007).cfg.wf ∧
      (Instr.vitDec false false 1).WellFormed (withSymWord 2 0x00000007).cfg.nmax ∧
      HoldsFromZero (withSymWord 2 0x00000007).sym [0b11, 0b01] ∧ [true].length = (1 : Len).toNat :=
  ⟨cfg40_wf .one, by decide, received_holds, by decide⟩

/-- Each clause: an edge; both predecessors reachable with equal metrics; only one reachable. -/
theorem witness_PredecessorTieKeepsTheLowerState :
    nextState 1 false = 0 ∧
      (nodeAt (List.replicate 64 { reach := true, pm := 3, pred := 0 }) 0).reach = true ∧
      (nodeAt (List.replicate 64 { reach := true, pm := 3, pred := 0 }) 1).reach = true ∧
      (nodeAt columnZero 0).reach = true ∧ (nodeAt columnZero 1).reach = false := by decide

/-- A first column, a reachable state with a next column, and column 6. -/
theorem witness_EveryColumnHasAReachableState :
    0 + 1 < (buildTrellis false [1, 1]).length ∧ (nodeOf (buildTrellis false [1, 1]) 0 0).reach = true ∧
      6 < (buildTrellis false (List.replicate 12 1)).length := by
  decide +kernel

/-- Its last clause: a decode that ends in NO_VALID_PATH (V-V8). -/
theorem witness_EveryColumnHasAReachableState_noValidPath :
    (withSymWord 2 0x00000007).cfg.wf ∧
      (Instr.vitDec false true 1).WellFormed (withSymWord 2 0x00000007).cfg.nmax ∧
      ∃ t, exec (.vitDec false true 1) (withSymWord 2 0x00000007) = .next t ∧ t.result = .noValidPath :=
  ⟨cfg40_wf .one, by decide, _, rfl, by decide +kernel⟩

/-- A frame that meets Condition B at position 85, the highest that is corrected. -/
theorem witness_HamDecRecheckAlwaysPasses :
    condB (checks (flipped (encodeFrame 5) 0)) = true ∧
      correctionPos (checks (flipped (encodeFrame 5) 0)).c = 85 := by decide +kernel

theorem witness_PathMetricsAreBounded :
    (nodeOf (buildTrellis false [3, 1]) 1 32).reach = true ∧
      HoldsFromZero (withSymWord 2 0x00000007).sym [0b11, 0b01] := ⟨by decide +kernel, received_holds⟩

theorem witness_PathMetricsNeverDecrease :
    (nodeOf (buildTrellis false [3, 1]) (0 + 1) 32).reach = true := by decide +kernel

theorem witness_CleanStreamDecodesToItsMessage :
    withMessage.cfg.wf ∧ (Instr.convEnc true 4).WellFormed withMessage.cfg.nmax ∧
      HoldsFromZero withMessage.msg [true, true, false, true] := ⟨cfg40_wf .one, by decide, withMessage_holds⟩

theorem witness_IndexSetsHaveTheClosedForm : 9 ≤ 9 ∧ 9 ≤ 85 ∧ 9 ∈ indexSet 1 ∧ 85 ∈ indexSet 7 := by decide

/-- A host at the start of POLL, with the command in flight. -/
theorem witness_PollLoopsWhileBusy :
    ∃ h : Hosted, h.dev.cfg.wf ∧ h.here = 0 ∧ h.labelAt 9 = 0 ∧ h.prog[0]? = some (.label 9) ∧
      h.prog[0 + 1]? = some (.lw 2 .status) ∧ h.prog[0 + 2]? = some (.bnz 2 0x10 9) ∧ h.dev.busy = true :=
  ⟨{ prog := pollStmts 2 9, here := 0, vars := [], dev := busyWith [] }, cfg40_wf .one, rfl, by decide, rfl,
    rfl, rfl, rfl⟩

end Sys2Proof.Tests
end

/-! The statements about the scope of the block: the build parameters (R9), what a command may read
(R30), the checksums (R85, R87), the state after reset (R152) and the soft codes (R14). -/

namespace Sys2Proof.Machine

/-! ## Build parameters (R9, R10)

Each operation keeps them, so each turn does. -/

@[simp] theorem finishDecode_cfg (strict : Bool) (cols : List (List Node)) (s : State) :
    (finishDecode strict cols s).cfg = s.cfg := by
  obtain ⟨-, h⟩ | ⟨b, -, ⟨-, -, h⟩ | ⟨-, h⟩⟩ := finishDecode_cases strict cols s <;> rw [h] <;> rfl

theorem exec_keeps_cfg {i : Instr} {s t : State} (h : exec i s = .next t) : t.cfg = s.cfg := by
  cases i with
  | hamEnc len => obtain ⟨-, rfl⟩ | ⟨-, rfl⟩ := execHamEnc_next h <;> rfl
  | hamDec len => obtain ⟨-, rfl⟩ | ⟨-, rfl⟩ := execHamDec_next h <;> rfl
  | convEnc inv len => obtain ⟨-, rfl⟩ | ⟨-, us, -, rfl⟩ := execConvEnc_next h <;> rfl
  | vitDec inv strict len =>
    obtain ⟨-, rfl⟩ | ⟨-, xs, -, rfl⟩ := execVitDec_next h
    · rfl
    · exact finishDecode_cfg strict _ s

theorem engineTurn_keeps_cfg {s t : State} (h : engineTurn s = .next t) : t.cfg = s.cfg := by
  obtain ⟨-, rfl⟩ | ⟨-, i, -, hi⟩ := engineTurn_next h
  · rfl
  · exact exec_keeps_cfg hi

@[simp] theorem issue_cfg (w : Word) (s : State) : (issue w s).cfg = s.cfg := by
  obtain ⟨-, h⟩ | ⟨-, ⟨e, -, h⟩ | ⟨i, -, ⟨-, h⟩ | ⟨-, h⟩⟩⟩ := issue_cases w s <;> rw [h] <;> rfl

@[simp] theorem writeTarget_cfg (tg : Target) (v : Word) (s : State) : (writeTarget tg v s).cfg = s.cfg := by
  cases tg with
  | cmd => exact issue_cfg v s
  | _ => rfl

theorem hostRead_keeps_cfg {addr width : Nat} {s t : State} (h : hostRead addr width s = .next t) :
    t.cfg = s.cfg := by
  obtain ⟨off, -, hr⟩ := hostRead_next h
  obtain ⟨-, -, rfl⟩ | ⟨-, v, -, rfl⟩ := readAccess_next hr <;> rfl

theorem hostWrite_keeps_cfg {addr width : Nat} {v : Word} {s t : State}
    (h : hostWrite addr width v s = .next t) : t.cfg = s.cfg := by
  obtain ⟨off, -, -, rfl⟩ := hostWrite_next h
  exact writeTarget_cfg _ v s

theorem step_keeps_cfg {s t : State} (h : step s = .next t) : t.cfg = s.cfg := by
  obtain ⟨-, he⟩ | ⟨rest, ⟨addr, width, -, hr⟩ | ⟨addr, width, v, -, hw⟩ | ⟨-, he⟩ | ⟨-, rfl⟩⟩ :=
    step_next h
  · exact engineTurn_keeps_cfg he
  · exact (hostRead_keeps_cfg hr :)
  · exact (hostWrite_keeps_cfg hw :)
  · exact (engineTurn_keeps_cfg he :)
  · rfl

/-! ## What a command may read (R30, R75)

A command reads its operand buffers and the build parameters, and nothing else of the state. Two runs
on states with the same of these are followed side by side, operation by operation. -/

/-- Two states hold the same of what a command may read. -/
structure SameOperands (s s' : State) : Prop where
  cfg : s'.cfg = s.cfg
  frame : s'.frame = s.frame
  msg : s'.msg = s.msg
  sym : s'.sym = s.sym

/-- The two states a command ends in hold the same buffers, result and BUSY, and the same of what a
command that keeps its length contract writes besides. -/
def OutputsAgree (nmax : Nat) (i : Instr) (t t' : State) : Prop :=
  t'.frame = t.frame ∧ t'.msg = t.msg ∧ t'.sym = t.sym ∧ t'.result = t.result ∧ t'.busy = t.busy ∧
    ((∃ len, i = .hamDec len ∧ i.WellFormed nmax) → t'.hamSyn = t.hamSyn ∧ t'.chk = t.chk) ∧
    ((∃ inv len, i = .convEnc inv len ∧ i.WellFormed nmax) → t'.sr = t.sr) ∧
    ((∃ inv strict len, i = .vitDec inv strict len ∧ i.WellFormed nmax) →
      t'.vitInfo = t.vitInfo ∧ t'.trellis = t.trellis)

/-- Two outcomes are of the same kind: next states related by `P`, or the same fault. -/
def OutcomesAgree (P : State → State → Prop) (o o' : Host.Outcome State Fault Refusal) : Prop :=
  match o, o' with
  | .next t, .next t' => P t t'
  | .fault e, .fault e' => e' = e
  | _, _ => False

section agreement

variable {P : State → State → Prop} {s s' : State}

theorem whenLengthOk_agree {i : Instr} {run run' : Host.Outcome State Fault Refusal}
    (hs : SameOperands s s')
    (hbad : lengthOk s.cfg.nmax i = false → P (s.reject .invalidLength) (s'.reject .invalidLength))
    (hrun : OutcomesAgree P run run') :
    OutcomesAgree P (whenLengthOk i s run) (whenLengthOk i s' run') := by
  cases hl : lengthOk s.cfg.nmax i with
  | false => rw [whenLengthOk_bad hl, whenLengthOk_bad (hs.cfg ▸ hl)]; exact hbad hl
  | true => rw [whenLengthOk_ok hl, whenLengthOk_ok (hs.cfg ▸ hl)]; exact hrun

theorem withMsg_agree {n : Nat} {run run' : List Bool → Host.Outcome State Fault Refusal}
    (hs : SameOperands s s') (hrun : ∀ us, OutcomesAgree P (run us) (run' us)) :
    OutcomesAgree P (withMsg n s run) (withMsg n s' run') := by
  rw [withMsg, withMsg, hs.msg]
  cases Memory.readBlock s.msg 0 n with
  | error k => rfl
  | ok us => exact hrun us

theorem withSym_agree {n : Nat} {run run' : List Symbol → Host.Outcome State Fault Refusal}
    (hs : SameOperands s s') (hrun : ∀ xs, OutcomesAgree P (run xs) (run' xs)) :
    OutcomesAgree P (withSym n s run) (withSym n s' run') := by
  rw [withSym, withSym, hs.sym]
  cases Memory.readBlock s.sym 0 n with
  | error k => rfl
  | ok xs => exact hrun xs

/-- A rejected command writes no output of its own, and the buffers are as they were. -/
theorem reject_agrees {nmax : Nat} {i : Instr} {c : ResultCode} (hs : SameOperands s s')
    (hl : lengthOk nmax i = false) : OutputsAgree nmax i (s.reject c) (s'.reject c) := by
  simp [OutputsAgree, Instr.WellFormed, hl, hs.frame, hs.msg, hs.sym]

/-- The selection and the metric come from the trellis alone, so both states end VIT_DEC the same way. -/
theorem finishDecode_agrees {nmax : Nat} {inv strict : Bool} {len : Len} (cols : List (List Node))
    (hs : SameOperands s s') :
    OutputsAgree nmax (.vitDec inv strict len) (finishDecode strict cols s)
      (finishDecode strict cols s') := by
  unfold finishDecode
  dsimp only
  cases selectFinal (finalColumn cols) with
  | none => simp [OutputsAgree, hs.frame, hs.msg, hs.sym]
  | some b =>
    dsimp only
    split
    · simp [OutputsAgree, hs.frame, hs.msg, hs.sym]
    · simp [OutputsAgree, hs.frame, hs.msg, hs.sym]

theorem exec_agrees (i : Instr) (hs : SameOperands s s') :
    OutcomesAgree (OutputsAgree s.cfg.nmax i) (exec i s) (exec i s') := by
  cases i with
  | hamEnc len =>
    refine whenLengthOk_agree hs (reject_agrees hs) ?_
    simp [OutcomesAgree, OutputsAgree, hs.frame, hs.msg, hs.sym]
  | hamDec len =>
    refine whenLengthOk_agree hs (reject_agrees hs) ?_
    simp [OutcomesAgree, OutputsAgree, hs.cfg, hs.frame, hs.msg, hs.sym]
  | convEnc inv len =>
    refine whenLengthOk_agree hs (reject_agrees hs) (withMsg_agree hs fun us => ?_)
    simp [OutcomesAgree, OutputsAgree, hs.frame, hs.msg, hs.sym]
  | vitDec inv strict len =>
    exact whenLengthOk_agree hs (reject_agrees hs)
      (withSym_agree hs fun xs => finishDecode_agrees (buildTrellis inv xs) hs)

end agreement

/-! ## Checksums (R85, R87) -/

/-- Bit j−1 of C is the checksum c_j (R87). -/
theorem getLsbD_checks_c (f : Frame) {j : Nat} (h1 : 1 ≤ j) (h7 : j ≤ 7) :
    (checks f).c.getLsbD (j - 1) = checksum f j := by
  simp only [checks, BitVec.getLsbD_or, getLsbD_place, BitVec.getLsbD_ofBool]
  interval_cases j <;> simp

/-- How many elements of a list a test keeps, as the sum of its answers. -/
theorem length_filter_eq_sum_toNat {α : Type} (p : α → Bool) (l : List α) :
    (l.filter p).length = (l.map fun x => (p x).toNat).sum := by
  induction l with
  | nil => rfl
  | cons x l ih => cases h : p x <;> simp [h, ih, Nat.add_comm]

/-- The scan from bit `n − 1` down finds the highest 1 bit of a number below `2 ^ n` (R13). -/
theorem msbBelow_eq_log2 {c : BitVec 7} (hc : c ≠ 0) {n : Nat} (h : c.toNat < 2 ^ n) :
    msbBelow c n = Nat.log2 c.toNat + 1 := by
  have h0 : c.toNat ≠ 0 := fun e => hc (BitVec.eq_of_toNat_eq e)
  induction n with
  | zero => omega
  | succ n ih =>
    by_cases hn : c.toNat < 2 ^ n
    · have hbit : c.getLsbD n = false := Nat.testBit_lt_two_pow hn
      rw [msbBelow, hbit, if_neg Bool.false_ne_true, ih hn]
    · have hlog : Nat.log2 c.toNat = n := (Nat.log2_eq_iff h0).2 ⟨Nat.le_of_not_lt hn, h⟩
      have hbit : c.getLsbD n = true := hlog ▸ Nat.testBit_log2 h0
      rw [msbBelow, hbit, if_pos rfl, hlog]

theorem msb_eq_log2 {c : BitVec 7} (hc : c ≠ 0) : msb c = Nat.log2 c.toNat + 1 :=
  msbBelow_eq_log2 hc c.isLt

/-! ## The state after reset (R19, R152) -/

theorem resetFor_good {c : Config} (hc : c.wf) : (State.resetFor c).Good where
  cfg := hc
  msg := ⟨.nil, by simp⟩
  sym := ⟨.nil, by simp⟩
  inFlight := rfl
  hamSyn := by simp [State.hamSynOk]
  vitInfo := by simp [State.vitInfoOk]

/-! ## The statements -/

/-- Settles O18: the turn's inversion lemma, and then each kind of turn keeps the parameters. -/
theorem stepKeepsBuildParameters : Obligations.StepKeepsBuildParameters :=
  fun _ _ h => step_keeps_cfg h

/-- Settles O22: the second state differs in nothing a command may read. -/
theorem commandsIgnoreEarlierResults : Obligations.CommandsIgnoreEarlierResults := by
  intro i s result busy ovr hamSyn vitInfo readData cur sr trellis chk
  exact exec_agrees i ⟨rfl, rfl, rfl, rfl⟩

/-- Settles O36, by the bits of C, the count of a filter as a sum, and the scan of msb. -/
theorem checksumsAreTheRules : Obligations.ChecksumsAreTheRules :=
  fun f => ⟨fun _ h1 h7 => getLsbD_checks_c f h1 h7, rfl, length_filter_eq_sum_toNat _ _, msb_eq_log2⟩

/-- Settles O16: nothing is in flight, the buffers are empty and the report registers are 0. -/
theorem resetIsGood : Obligations.ResetIsGood :=
  ⟨resetFor_good (by decide), fun _ hc => resetFor_good hc⟩

/-- Settles O59: R14's two maps, code by code. -/
theorem softAndHardBits : Obligations.SoftAndHardBits := ⟨rfl, rfl, rfl, rfl, rfl, rfl⟩

end Sys2Proof.Machine

/-! The statements about the state: what a host's access and the engine's turn do (R21 to R30, R37 to
R42, R74, R150 to R154), what reset leaves (R152), and the invariant that every step keeps. -/

namespace Sys2Proof.Machine

/-! ## The turn of a step

One equation for each kind of turn, and for the engine idle and busy. -/

section turns

variable {s : State} {rest : List Input}

theorem step_of_noTurn (h : s.inputs = []) : step s = engineTurn s := by rw [step, h]

theorem step_of_read {addr width : Nat} (h : s.inputs = .read addr width :: rest) :
    step s = hostRead addr width { s with inputs := rest } := by rw [step, h]

theorem step_of_write {addr width : Nat} {v : Word} (h : s.inputs = .write addr width v :: rest) :
    step s = hostWrite addr width v { s with inputs := rest } := by rw [step, h]

theorem step_of_engine (h : s.inputs = .engine :: rest) :
    step s = engineTurn { s with inputs := rest } := by rw [step, h]

theorem step_of_reset (h : s.inputs = .reset :: rest) :
    step s = .next (State.resetInput { s with inputs := rest }) := by rw [step, h]

theorem engineTurn_idle (h : s.busy = false) : engineTurn s = .next s := by simp [engineTurn, h]

theorem engineTurn_busy {i : Instr} (hb : s.busy = true) (hf : fetch s = .ok i) :
    engineTurn s = exec i s := by simp [engineTurn, hb, hf]

end turns

/-! ## The layout of the window (R37) -/

theorem targetAt_eq_cmd {off : Nat} : targetAt off = .cmd ↔ off = 0 := by
  unfold targetAt
  split_ifs <;> simp [*]

theorem targetAt_eq_msg {off w : Nat} (h4 : off % 4 = 0) :
    targetAt off = .msg w ↔ off = 0x1000 + 4 * w ∧ w < 512 := by
  unfold targetAt
  split_ifs <;> simp only [Target.msg.injEq, false_iff] <;> omega

theorem targetAt_eq_sym {off w : Nat} (h4 : off % 4 = 0) :
    targetAt off = .sym w ↔ off = 0x2000 + 4 * w ∧ w < 2048 := by
  unfold targetAt
  split_ifs <;> simp only [Target.sym.injEq, false_iff] <;> omega

theorem targetAt_of_reserved {off : Nat} (h : Claims.IsReservedOffset off) : targetAt off = .reserved := by
  unfold Claims.IsReservedOffset at h
  unfold targetAt
  repeat rw [if_neg (by omega)]

theorem isBuffer_targetAt {off : Nat} (h4 : off % 4 = 0) :
    (targetAt off).isBuffer = true ↔ Claims.IsBufferOffset off := by
  unfold targetAt Claims.IsBufferOffset
  split_ifs <;> simp only [Target.isBuffer, Bool.false_eq_true, false_iff, true_iff] <;> omega

/-! ## Accesses -/

section accesses

variable {s : State} {tg : Target} {off : Nat} {rest : List Input}

theorem hostRead_at (hc : s.cfg.wf) (h4 : off % 4 = 0) (hoff : off < windowSize) :
    hostRead (s.cfg.base + off) 4 s = readAccess (targetAt off) s := by
  obtain ⟨-, -, hbase⟩ := hc
  rw [hostRead, locate_of (by omega) h4 hoff]

theorem hostWrite_at {v : Word} (hc : s.cfg.wf) (h4 : off % 4 = 0) (hoff : off < windowSize) :
    hostWrite (s.cfg.base + off) 4 v s = writeAccess off v s := by
  obtain ⟨-, -, hbase⟩ := hc
  rw [hostWrite, locate_of (by omega) h4 hoff]

theorem readAccess_free (hb : (s.busy && tg.isBuffer) = true) :
    readAccess tg s = .next (s.answerFree (dataMask s.cfg tg)) := by simp only [readAccess, hb, if_true]

theorem readAccess_ok {v : Word} (hb : (s.busy && tg.isBuffer) = false) (hv : readTarget s tg = .ok v) :
    readAccess tg s = .next (s.answer v) := by simp [readAccess, hb, hv]

theorem readAccess_error {e : Fault} (hb : (s.busy && tg.isBuffer) = false)
    (he : readTarget s tg = .error e) : readAccess tg s = .fault e := by simp [readAccess, hb, he]

theorem writeAccess_ok {v : Word} (hb : (s.busy && (targetAt off).isBuffer) = false) :
    writeAccess off v s = .next (writeTarget (targetAt off) v s) := by simp [writeAccess, hb]

theorem writeAccess_hazard {v : Word} (hb : (s.busy && (targetAt off).isBuffer) = true) :
    writeAccess off v s = .fault (.hostHazard off) := by simp only [writeAccess, hb, if_true]

/-- What a target reads as depends neither on the turns still to come nor on an earlier read. -/
theorem readTarget_modelFields {before : Word} :
    readTarget { s with inputs := rest, readData := before } tg = readTarget s tg := by
  cases tg <;> rfl

/-- A write to a target that is neither CMD nor a buffer is ignored (R24, R26, R27, R29, R41). -/
theorem writeTarget_ignored {v : Word} (hcmd : tg ≠ .cmd) (hbuf : tg.isBuffer = false) :
    writeTarget tg v s = s := by
  cases tg with
  | cmd => exact absurd rfl hcmd
  | frame k => cases hbuf
  | msg w => cases hbuf
  | sym w => cases hbuf
  | status | hamSyn | vitInfo | param | reserved => rfl

/-- A host read at an offset whose value is not free answers with that value. -/
theorem step_read_ok {v : Word} (hc : s.cfg.wf) (h4 : off % 4 = 0) (hoff : off < windowSize)
    (hin : s.inputs = .read (s.cfg.base + off) 4 :: rest)
    (hb : (s.busy && (targetAt off).isBuffer) = false) (hv : readTarget s (targetAt off) = .ok v) :
    step s = .next { s with readData := v, inputs := rest } :=
  (step_of_read hin).trans ((hostRead_at (s := { s with inputs := rest }) hc h4 hoff).trans
    (readAccess_ok hb (readTarget_modelFields.trans hv)))

/-- A host read at an offset that maps an unwritten element faults. -/
theorem step_read_error {e : Fault} (hc : s.cfg.wf) (h4 : off % 4 = 0) (hoff : off < windowSize)
    (hin : s.inputs = .read (s.cfg.base + off) 4 :: rest)
    (hb : (s.busy && (targetAt off).isBuffer) = false) (he : readTarget s (targetAt off) = .error e) :
    step s = .fault e :=
  (step_of_read hin).trans ((hostRead_at (s := { s with inputs := rest }) hc h4 hoff).trans
    (readAccess_error hb (readTarget_modelFields.trans he)))

/-- A host write at an offset that is neither CMD's nor a buffer's changes nothing, busy or idle. -/
theorem step_write_ignored {v : Word} (hc : s.cfg.wf) (h4 : off % 4 = 0) (hoff : off < windowSize)
    (hin : s.inputs = .write (s.cfg.base + off) 4 v :: rest)
    (hcmd : targetAt off ≠ .cmd) (hbuf : (targetAt off).isBuffer = false) :
    step s = .next { s with inputs := rest } := by
  rw [step_of_write hin]
  refine (hostWrite_at (s := { s with inputs := rest }) hc h4 hoff).trans ?_
  rw [writeAccess_ok (by rw [hbuf, Bool.and_false]), writeTarget_ignored hcmd hbuf]

end accesses

/-! ## The words of STATUS and PARAM (R24, R29) -/

section words

variable (s : State) (c : Config)

/-- STATUS packs RESULT, BUSY and OVR at the places where a command word packs OP, INV and STRICT. -/
theorem statusWord_eq_commandWord : statusWord s = commandWord s.result.bits s.busy s.ovr 0 := by
  have hlen : place 32 16 (0 : Len) = 0#32 := rfl
  rw [statusWord, commandWord, hlen, BitVec.zero_or]

theorem result_statusWord : (statusWord s).extractLsb' 0 4 = s.result.bits := by
  rw [statusWord_eq_commandWord]; exact opField_commandWord ..

theorem busy_statusWord : (statusWord s).getLsbD 4 = s.busy := by
  rw [statusWord_eq_commandWord]; exact invField_commandWord ..

theorem ovr_statusWord : (statusWord s).getLsbD 5 = s.ovr := by
  rw [statusWord_eq_commandWord]; exact strictField_commandWord ..

theorem reserved_statusWord : (statusWord s).extractLsb' 6 26 = 0#26 := by
  refine BitVec.eq_of_getLsbD_eq fun i hi => ?_
  rw [BitVec.getLsbD_extractLsb', statusWord_eq_commandWord, getLsbD_commandWord]
  simp [show ¬ 6 + i = 5 by omega, show ¬ 6 + i = 4 by omega,
    BitVec.getLsbD_of_ge s.result.bits (6 + i) (by omega)]

/-- A bit of PARAM's word. -/
theorem getLsbD_paramWord (i : Nat) :
    (paramWord c).getLsbD i = (decide (i < 32) &&
      ((decide (16 ≤ i) && (decide (i - 16 = 0) && c.conda == .six)) ||
        (BitVec.ofNat 16 c.nmax).getLsbD i)) := by
  simp only [paramWord, BitVec.getLsbD_or, getLsbD_place, BitVec.getLsbD_ofBool, Nat.zero_le,
    decide_true, Bool.true_and, Nat.sub_zero, Bool.and_or_distrib_left]

/-- NMAX fits its 16 bits, since R9 bounds it by 16384. -/
theorem nmax_paramWord (hc : c.wf) : ((paramWord c).extractLsb' 0 16).toNat = c.nmax := by
  obtain ⟨-, hmax, -⟩ := hc
  have hfield : (paramWord c).extractLsb' 0 16 = BitVec.ofNat 16 c.nmax := by
    refine BitVec.eq_of_getLsbD_eq fun i hi => ?_
    rw [BitVec.getLsbD_extractLsb', Nat.zero_add, getLsbD_paramWord]
    simp [hi, show ¬ 16 ≤ i by omega, show i < 32 by omega]
  rw [hfield, BitVec.toNat_ofNat, Nat.mod_eq_of_lt (by omega)]

theorem condaSix_paramWord : (paramWord c).getLsbD 16 = (c.conda == .six) := by
  rw [getLsbD_paramWord, BitVec.getLsbD_of_ge (BitVec.ofNat 16 c.nmax) 16 (by omega)]
  simp

theorem reserved_paramWord : (paramWord c).extractLsb' 17 15 = 0#15 := by
  refine BitVec.eq_of_getLsbD_eq fun i hi => ?_
  rw [BitVec.getLsbD_extractLsb', getLsbD_paramWord,
    BitVec.getLsbD_of_ge (BitVec.ofNat 16 c.nmax) (17 + i) (by omega)]
  simp [show ¬ 17 + i - 16 = 0 by omega]

end words

/-! ## The registers after reset (R152) -/

theorem statusWord_resetFor (c : Config) : statusWord (State.resetFor c) = 0 := by
  rw [statusWord, State.resetFor_result, State.resetFor_busy, State.resetFor_ovr]
  rfl

theorem frameWord_zero (k : Nat) : frameWord 0 k = 0 := by simp [frameWord]

/-- STATUS, HAM_SYN, VIT_INFO and FRAME0..2 read 0 after reset. -/
theorem readTarget_resetFor (c : Config) {off : Nat}
    (h : off ∈ [0x004, 0x008, 0x00C, 0x010, 0x014, 0x018]) :
    readTarget (State.resetFor c) (targetAt off) = .ok 0 := by
  simp only [List.mem_cons, List.not_mem_nil, or_false] at h
  obtain rfl | rfl | rfl | rfl | rfl | rfl := h
  · exact congrArg Except.ok (statusWord_resetFor c)
  · rfl
  · rfl
  · exact congrArg Except.ok (frameWord_zero 0)
  · exact congrArg Except.ok (frameWord_zero 1)
  · exact congrArg Except.ok (frameWord_zero 2)

/-! ## Elements that nothing has written (R21, R22) -/

/-- The elements a window word maps are those whose index divided by the word's capacity is the
word's number (R39, R40). -/
theorem mem_elementsIn_iff {per total w k : Nat} (hp : 0 < per) :
    (per * w ≤ k ∧ k < per * w + elementsIn total per w) ↔ k / per = w ∧ k < total := by
  rw [elementsIn, Nat.div_eq_iff hp, Nat.mul_comm w per]
  omega

/-- A block with an unwritten element cannot be read, and what is named is no later element. -/
theorem Memory.readBlock_of_unwritten {α : Type} {m : Memory α} {a n k : Nat} (h1 : a ≤ k)
    (h2 : k < a + n) (hk : Memory.read m k = none) : ∃ j ≤ k, Memory.readBlock m a n = .error j := by
  cases hb : Memory.readBlock m a n with
  | ok vs =>
    obtain ⟨hlen, hread⟩ := Memory.readBlock_ok hb
    have hsome := hread (k - a) (by omega)
    rw [Nat.add_sub_cancel' h1, hk, eq_comm, List.getElem?_eq_none_iff] at hsome
    omega
  | error j =>
    refine ⟨j, ?_, rfl⟩
    by_contra hlt
    obtain ⟨-, -, -, hbefore⟩ := Memory.readBlock_error hb
    simpa [hk] using hbefore k h1 (Nat.lt_of_not_le hlt)

/-- A block whose first unwritten element is `k` names `k`. -/
theorem Memory.readBlock_of_firstUnwritten {α : Type} {m : Memory α} {n k : Nat} (hn : k < n)
    (hk : Memory.read m k = none) (hbefore : ∀ j < k, (Memory.read m j).isSome) :
    Memory.readBlock m 0 n = .error k := by
  obtain ⟨j, hj, hb⟩ := Memory.readBlock_of_unwritten (n := n) (Nat.zero_le k) (by omega) hk
  obtain ⟨-, -, hnone, -⟩ := Memory.readBlock_error hb
  rcases Nat.lt_or_eq_of_le hj with hlt | rfl
  · simpa [hnone] using hbefore j hlt
  · exact hb

/-- What a window word that cannot be read names is one of its elements that nothing has written. -/
theorem Memory.readWord_error {α : Type} {m : Memory α} {per total w k : Nat} (hp : 0 < per)
    (h : Memory.readBlock m (per * w) (elementsIn total per w) = .error k) :
    k / per = w ∧ k < total ∧ Memory.read m k = none := by
  obtain ⟨h1, h2, hnone, -⟩ := Memory.readBlock_error h
  obtain ⟨hw, ht⟩ := (mem_elementsIn_iff hp).1 ⟨h1, h2⟩
  exact ⟨hw, ht, hnone⟩

/-- A window word with an unwritten element cannot be read. -/
theorem Memory.readWord_of_unwritten {α : Type} {m : Memory α} {per total w : Nat} (hp : 0 < per)
    (h : ∃ k, k / per = w ∧ k < total ∧ Memory.read m k = none) :
    ∃ j, Memory.readBlock m (per * w) (elementsIn total per w) = .error j := by
  obtain ⟨k, hw, ht, hk⟩ := h
  obtain ⟨h1, h2⟩ := (mem_elementsIn_iff hp).2 ⟨hw, ht⟩
  obtain ⟨j, -, hj⟩ := Memory.readBlock_of_unwritten h1 h2 hk
  exact ⟨j, hj⟩

theorem withMsg_error {s : State} {n k : Nat} {run : List Bool → Host.Outcome State Fault Refusal}
    (h : Memory.readBlock s.msg 0 n = .error k) : withMsg n s run = .fault (.unwrittenRead .msg k) := by
  rw [withMsg, h]

theorem withMsg_ok {s : State} {n : Nat} {us : List Bool}
    {run : List Bool → Host.Outcome State Fault Refusal} (h : Memory.readBlock s.msg 0 n = .ok us) :
    withMsg n s run = run us := by
  rw [withMsg, h]

theorem withSym_error {s : State} {n k : Nat} {run : List Symbol → Host.Outcome State Fault Refusal}
    (h : Memory.readBlock s.sym 0 n = .error k) : withSym n s run = .fault (.unwrittenRead .sym k) := by
  rw [withSym, h]

theorem withSym_ok {s : State} {n : Nat} {xs : List Symbol}
    {run : List Symbol → Host.Outcome State Fault Refusal} (h : Memory.readBlock s.sym 0 n = .ok xs) :
    withSym n s run = run xs := by
  rw [withSym, h]

theorem readMsgWord_ok {s : State} {w : Nat} {bs : List Bool}
    (h : Memory.readBlock s.msg (32 * w) (elementsIn s.cfg.nmax 32 w) = .ok bs) :
    readMsgWord s w = .ok (packBits bs) := by
  rw [readMsgWord, h]

theorem readMsgWord_error {s : State} {w k : Nat}
    (h : Memory.readBlock s.msg (32 * w) (elementsIn s.cfg.nmax 32 w) = .error k) :
    readMsgWord s w = .error (.unwrittenRead .msg k) := by
  rw [readMsgWord, h]

theorem readSymWord_ok {s : State} {w : Nat} {xs : List Symbol}
    (h : Memory.readBlock s.sym (16 * w) (elementsIn (2 * s.cfg.nmax) 16 w) = .ok xs) :
    readSymWord s w = .ok (packSymbols xs) := by
  rw [readSymWord, h]

theorem readSymWord_error {s : State} {w k : Nat}
    (h : Memory.readBlock s.sym (16 * w) (elementsIn (2 * s.cfg.nmax) 16 w) = .error k) :
    readSymWord s w = .error (.unwrittenRead .sym k) := by
  rw [readSymWord, h]

/-! ## Which events change STATUS (R30) -/

/-- Two states show the same RESULT, BUSY and OVR. -/
def SameStatus (s t : State) : Prop := t.result = s.result ∧ t.busy = s.busy ∧ t.ovr = s.ovr

theorem hostRead_keeps_status {addr width : Nat} {s t : State} (h : hostRead addr width s = .next t) :
    SameStatus s t := by
  obtain ⟨off, -, hr⟩ := hostRead_next h
  obtain ⟨-, -, rfl⟩ | ⟨-, v, -, rfl⟩ := readAccess_next hr <;> exact ⟨rfl, rfl, rfl⟩

theorem writeTarget_keeps_status {tg : Target} (htg : tg ≠ .cmd) (v : Word) (s : State) :
    SameStatus s (writeTarget tg v s) := by
  cases tg with
  | cmd => exact absurd rfl htg
  | _ => exact ⟨rfl, rfl, rfl⟩

/-- A host write that changes STATUS is one of CMD. -/
theorem hostWrite_status {addr width : Nat} {v : Word} {s t : State}
    (h : hostWrite addr width v s = .next t) : (addr = s.cfg.base ∧ width = 4) ∨ SameStatus s t := by
  obtain ⟨off, hloc, -, rfl⟩ := hostWrite_next h
  obtain ⟨hw, -, hge, -, hoff⟩ := locate_ok hloc
  by_cases hcmd : targetAt off = .cmd
  · have h0 : off = 0 := targetAt_eq_cmd.1 hcmd
    exact .inl ⟨by omega, hw⟩
  · exact .inr (writeTarget_keeps_status hcmd v s)

theorem engineTurn_status {s t : State} (h : engineTurn s = .next t) : s.busy = true ∨ SameStatus s t := by
  obtain ⟨-, rfl⟩ | ⟨hb, -⟩ := engineTurn_next h
  · exact .inr ⟨rfl, rfl, rfl⟩
  · exact .inl hb

/-! ## Lengths and metrics of the convolutional code (R110, R126, R130) -/

/-- Each message bit gives two symbols (R112). -/
theorem length_convolve (inv : Bool) (r : StateIx) (us : List Bool) :
    (convolve inv r us).1.length = 2 * us.length := by
  induction us generalizing r with
  | nil => rfl
  | cons u us ih => simp only [convolve, List.length_cons, ih]; omega

theorem length_hardPairs (xs : List Symbol) : (hardPairs xs).length = xs.length / 2 := by
  induction xs using hardPairs.induct with
  | case1 x y xs ih => simp only [hardPairs, List.length_cons, ih]; omega
  | case2 xs hshort =>
    match xs with
    | [] => rfl
    | [_] => simp [hardPairs]
    | x :: y :: xs => exact absurd rfl (hshort x y xs)

theorem length_columnsFrom (inv : Bool) (col : List Node) (hs : List (Bool × Bool)) :
    (columnsFrom inv col hs).length = hs.length + 1 := by
  induction hs generalizing col with
  | nil => rfl
  | cons h hs ih => rw [columnsFrom, List.length_cons, ih, List.length_cons]

/-- The traceback passes each column but column 0, and each gives one bit (R126). -/
theorem length_traceback (cols : List (List Node)) (r : StateIx) (acc : List Bool) :
    (traceback cols r acc).length = (cols.length - 1) + acc.length := by
  induction cols generalizing r acc with
  | nil => simp [traceback]
  | cons col cols ih =>
    cases cols with
    | nil => simp [traceback]
    | cons earlier cols => rw [traceback, ih]; simp only [List.length_cons]; omega

/-- A trellis of 2N symbols decodes to N bits. -/
theorem length_decodedMessage (inv : Bool) (xs : List Symbol) (r : StateIx) :
    (decodedMessage (buildTrellis inv xs) r).length = xs.length / 2 := by
  rw [decodedMessage, length_traceback, List.length_reverse, buildTrellis, length_columnsFrom,
    length_hardPairs]
  rfl

/-- The node of a state after one node of the column was set. -/
theorem nodeAt_set (col : List Node) (n r : StateIx) (x : Node) :
    nodeAt (col.set n.toNat x) r = if r = n ∧ n.toNat < col.length then x else nodeAt col r := by
  simp only [nodeAt, List.getD_eq_getElem?_getD, List.getElem?_set, BitVec.toNat_inj, eq_comm (a := n)]
  by_cases hr : r = n
  · subst hr
    by_cases hl : r.toNat < col.length
    · simp [hl]
    · simp [hl]
  · simp [hr]

theorem branchMetric_le_two (e h : Bool × Bool) : branchMetric e h ≤ 2 := by
  have h1 := Bool.toNat_le (Bool.xor e.1 h.1)
  have h2 := Bool.toNat_le (Bool.xor e.2 h.2)
  unfold branchMetric
  omega

/-- Every metric of a column is at most `b`; a node that nothing has reached has metric 0. -/
def PmAtMost (b : Nat) (col : List Node) : Prop := ∀ r, (nodeAt col r).pm ≤ b

theorem pmAtMost_of_forall_mem {b : Nat} {col : List Node} (h : ∀ n ∈ col, n.pm ≤ b) : PmAtMost b col := by
  intro r
  unfold nodeAt
  rcases Nat.lt_or_ge r.toNat col.length with hr | hr
  · rw [List.getD_eq_getElem _ _ hr]; exact h _ (List.getElem_mem hr)
  · rw [List.getD_eq_default _ _ hr]; exact Nat.zero_le b

theorem pmAtMost_unreached (b k : Nat) : PmAtMost b (List.replicate k unreached) :=
  pmAtMost_of_forall_mem fun _ hn => (List.eq_of_mem_replicate hn) ▸ Nat.zero_le b

theorem pmAtMost_columnZero : PmAtMost 0 columnZero :=
  pmAtMost_of_forall_mem fun n hn => by
    rcases List.mem_cons.1 hn with rfl | hn
    · exact le_refl 0
    · exact (List.eq_of_mem_replicate hn) ▸ le_refl 0

section relaxation

variable {b : Nat} {col built : List Node}

theorem relaxEdge_pmAtMost (inv : Bool) (h : Bool × Bool) (r : StateIx) (u : Bool)
    (hcol : PmAtMost b col) (hbuilt : PmAtMost (b + 2) built) :
    PmAtMost (b + 2) (relaxEdge inv h col built r u) := by
  unfold relaxEdge
  dsimp only
  split
  · exact hbuilt
  · intro r'
    rw [nodeAt_set]
    split
    · exact Nat.add_le_add (hcol r) (branchMetric_le_two _ _)
    · exact hbuilt r'

theorem relaxState_pmAtMost (inv : Bool) (h : Bool × Bool) (r : StateIx)
    (hcol : PmAtMost b col) (hbuilt : PmAtMost (b + 2) built) :
    PmAtMost (b + 2) (relaxState inv h col built r) := by
  unfold relaxState
  split
  · exact relaxEdge_pmAtMost inv h r true hcol (relaxEdge_pmAtMost inv h r false hcol hbuilt)
  · exact hbuilt

/-- A step of the trellis adds at most 2 to the metrics (R120). -/
theorem nextColumn_pmAtMost (inv : Bool) (h : Bool × Bool) (hcol : PmAtMost b col) :
    PmAtMost (b + 2) (nextColumn inv h col) :=
  List.foldlRecOn _ _ (pmAtMost_unreached _ _)
    fun _ hbuilt _ _ => relaxState_pmAtMost inv h _ hcol hbuilt

end relaxation

theorem columnsFrom_ne_nil (inv : Bool) (col : List Node) (hs : List (Bool × Bool)) :
    columnsFrom inv col hs ≠ [] := by
  cases hs <;> exact List.cons_ne_nil _ _

theorem finalColumn_cons {col : List Node} {cols : List (List Node)} (h : cols ≠ []) :
    finalColumn (col :: cols) = finalColumn cols := by
  cases cols with
  | nil => exact absurd rfl h
  | cons c cols => rfl

theorem finalColumn_columnsFrom_pmAtMost (inv : Bool) {b : Nat} {col : List Node} (hs : List (Bool × Bool))
    (hcol : PmAtMost b col) : PmAtMost (b + 2 * hs.length) (finalColumn (columnsFrom inv col hs)) := by
  induction hs generalizing b col with
  | nil => exact hcol
  | cons h hs ih =>
    rw [columnsFrom, finalColumn_cons (columnsFrom_ne_nil _ _ _), List.length_cons,
      show b + 2 * (hs.length + 1) = b + 2 + 2 * hs.length by omega]
    exact ih (nextColumn_pmAtMost inv h hcol)

/-- The final metrics of a decode of 2N symbols are at most 2N (R130). -/
theorem finalColumn_buildTrellis_pmAtMost (inv : Bool) (xs : List Symbol) :
    PmAtMost (2 * (xs.length / 2)) (finalColumn (buildTrellis inv xs)) := by
  have h := finalColumn_columnsFrom_pmAtMost inv (hardPairs xs) pmAtMost_columnZero
  rwa [length_hardPairs, Nat.zero_add] at h

/-! ## What HAM_DEC reports (R90, R94) -/

theorem msbBelow_le (c : BitVec 7) (n : Nat) : msbBelow c n ≤ n := by
  induction n with
  | zero => exact le_refl 0
  | succ n ih =>
    rw [msbBelow]
    split <;> omega

theorem msb_le (c : BitVec 7) : msb c ≤ 7 := msbBelow_le c 7

/-- A syndrome with two bits set has its highest at checksum 2 or above (R90). -/
theorem two_le_msb {c : BitVec 7} (h : 2 ≤ popcount c) : 2 ≤ msb c := by
  have h0 : c ≠ 0 := by rintro rfl; revert h; decide
  have h1 : c ≠ 1 := by rintro rfl; revert h; decide
  have h2 : 2 ≤ c.toNat := by
    have h0' : c.toNat ≠ 0 := fun e => h0 (BitVec.eq_of_toNat_eq e)
    have h1' : c.toNat ≠ 1 := fun e => h1 (BitVec.eq_of_toNat_eq e)
    omega
  rw [msb_eq_log2 h0]
  have hlog : 1 ≤ Nat.log2 c.toNat := (Nat.le_log2 (by omega)).2 h2
  omega

/-- What HAM_SYN may report in K and POS beside a syndrome: nothing, or the offset and position of
Condition B. -/
def ReportsCorrection (chk : Checksums) (k pos : Nat) : Prop :=
  (k = 0 ∧ pos = 0) ∨ (chk.sigma = true ∧ 2 ≤ k ∧ k = msb chk.c ∧ pos + k = chk.c.toNat + 8)

theorem hamCorrect_report (v : CondaVariant) (f : Frame) :
    (hamCorrect v f).k = msb (checks f).c ∧ (hamCorrect v f).pos = correctionPos (checks f).c := by
  unfold hamCorrect
  dsimp only
  split <;> exact ⟨rfl, rfl⟩

/-- HAM_DEC corrects only under Condition B, and otherwise leaves the frame untouched (R91). -/
theorem hamDecide_cases (v : CondaVariant) (f : Frame) :
    (∃ code, hamDecide v f = hamUntouched f code) ∨
      (condB (checks f) = true ∧ hamDecide v f = hamCorrect v f) := by
  unfold hamDecide
  dsimp only
  split
  · exact .inl ⟨_, rfl⟩
  · split
    · exact .inl ⟨_, rfl⟩
    · split
      · exact .inr ⟨‹_›, rfl⟩
      · exact .inl ⟨_, rfl⟩

theorem hamDecide_reportsCorrection (v : CondaVariant) (f : Frame) :
    ReportsCorrection (checks f) (hamDecide v f).k (hamDecide v f).pos := by
  obtain ⟨code, h⟩ | ⟨hB, h⟩ := hamDecide_cases v f
  · rw [h]; exact .inl ⟨rfl, rfl⟩
  · obtain ⟨hsigma, hweight⟩ := Bool.and_eq_true_iff.1 hB
    obtain ⟨hk, hpos⟩ := hamCorrect_report v f
    have hmsb := msb_le (checks f).c
    rw [h, hk, hpos]
    refine .inr ⟨hsigma, two_le_msb (of_decide_eq_true hweight), rfl, ?_⟩
    unfold correctionPos
    omega

/-- A word of HAM_SYN with such a report is a good one: K and POS fit their fields. -/
theorem hamSynOk_of_report {t : State} {chk : Checksums} {k pos : Nat}
    (h : t.hamSyn = hamSynWord chk k pos) (hr : ReportsCorrection chk k pos) : t.hamSynOk = true := by
  have hc := chk.c.isLt
  have hmsb := msb_le chk.c
  have hk : k % 2 ^ 3 = k := Nat.mod_eq_of_lt (by obtain ⟨rfl, -⟩ | ⟨-, -, rfl, -⟩ := hr <;> omega)
  have hpos : pos % 2 ^ 8 = pos := Nat.mod_eq_of_lt (by obtain ⟨-, rfl⟩ | ⟨-, -, -, he⟩ := hr <;> omega)
  simp only [State.hamSynOk, h, syn_hamSynWord, csig_hamSynWord, k_hamSynWord, pos_hamSynWord,
    reserved_hamSynWord_low, reserved_hamSynWord_high, BitVec.toNat_ofNat, hk, hpos]
  simpa [ReportsCorrection, and_assoc] using hr

/-- A word of VIT_INFO with a metric of at most 2 NMAX is a good one (R27, R130). -/
theorem vitInfoOk_of_metric {t : State} {r : StateIx} {m : Nat} (h : t.vitInfo = vitInfoWord r m)
    (hm : m ≤ 2 * t.cfg.nmax) : t.vitInfoOk = true := by
  have hmod := Nat.mod_le m (2 ^ 16)
  simp only [State.vitInfoOk, h, reserved_vitInfoWord, fmetric_vitInfoWord, BitVec.toNat_ofNat]
  simpa using hmod.trans hm

/-! ## The invariant (R21, R22, R26, R27, R71)

A good state says nothing of FRAME, STATUS.RESULT, STATUS.OVR and the model's own fields, and nothing
of CUR while BUSY = 0; so each turn has to show only what it writes. -/

theorem good_of_idle {t : State} (hcfg : t.cfg.wf) (hmsg : Memory.wf t.cfg.nmax t.msg)
    (hsym : Memory.wf (2 * t.cfg.nmax) t.sym) (hbusy : t.busy = false) (hsyn : t.hamSynOk = true)
    (hvit : t.vitInfoOk = true) : t.Good :=
  ⟨hcfg, hmsg, hsym, by rw [State.inFlightOk, hbusy]; rfl, hsyn, hvit⟩

theorem inFlightOk_of_fetch {t : State} {i : Instr} (hf : fetch t = .ok i)
    (hl : lengthOk t.cfg.nmax i = true) : t.inFlightOk = true := by
  rw [State.inFlightOk, hf]
  simp [hl]

/-- The command in flight in a good state is one that was accepted (R71). -/
theorem fetch_of_inFlightOk {s : State} (h : s.inFlightOk = true) (hb : s.busy = true) :
    ∃ i, fetch s = .ok i ∧ lengthOk s.cfg.nmax i = true := by
  rw [State.inFlightOk, hb] at h
  cases hf : fetch s with
  | error e => rw [hf] at h; cases h
  | ok i => rw [hf] at h; exact ⟨i, rfl, h⟩

theorem len_le_of_lengthOk_convEnc {nmax : Nat} {inv : Bool} {len : Len}
    (h : lengthOk nmax (.convEnc inv len) = true) : len.toNat ≤ nmax := by
  simp only [lengthOk, Bool.and_eq_true, decide_eq_true_eq] at h
  exact h.2

theorem len_le_of_lengthOk_vitDec {nmax : Nat} {inv strict : Bool} {len : Len}
    (h : lengthOk nmax (.vitDec inv strict len) = true) : len.toNat ≤ nmax := by
  simp only [lengthOk, Bool.and_eq_true, decide_eq_true_eq] at h
  exact h.2

section good

variable {s t : State}

theorem State.Good.withInputs (h : s.Good) (rest : List Input) : { s with inputs := rest }.Good :=
  ⟨h.cfg, h.msg, h.sym, h.inFlight, h.hamSyn, h.vitInfo⟩

theorem State.Good.reject (h : s.Good) (c : ResultCode) : (s.reject c).Good :=
  good_of_idle h.cfg h.msg h.sym rfl h.hamSyn h.vitInfo

theorem State.Good.overrun (h : s.Good) : s.overrun.Good :=
  ⟨h.cfg, h.msg, h.sym, h.inFlight, h.hamSyn, h.vitInfo⟩

theorem State.Good.accept (h : s.Good) {w : Word} {i : Instr} (hd : decode w = .ok i)
    (hl : lengthOk s.cfg.nmax i = true) : (s.accept w).Good :=
  ⟨h.cfg, h.msg, h.sym, inFlightOk_of_fetch (decode_curWord hd) hl, h.hamSyn, h.vitInfo⟩

theorem State.Good.resetInput (h : s.Good) : s.resetInput.Good :=
  have hreset := resetFor_good h.cfg
  ⟨hreset.cfg, hreset.msg, hreset.sym, hreset.inFlight, hreset.hamSyn, hreset.vitInfo⟩

theorem issue_good (w : Word) (h : s.Good) : (issue w s).Good := by
  obtain ⟨-, he⟩ | ⟨-, ⟨e, -, he⟩ | ⟨i, hd, ⟨-, he⟩ | ⟨hl, he⟩⟩⟩ := issue_cases w s <;> rw [he]
  · exact h.overrun
  · exact h.reject _
  · exact h.reject _
  · exact h.accept hd hl

/-- A window word writes only elements below the bound (R39, R40). -/
theorem writeWord_wf {α : Type} {per total w : Nat} {m : Memory α} {vs : List α}
    (hlen : vs.length = elementsIn total per w) (h : Memory.wf total m) :
    Memory.wf total (Memory.writeBlock m (per * w) vs) :=
  Memory.writeBlock_wf (by rw [hlen, elementsIn]; omega) h

theorem writeTarget_good (tg : Target) (v : Word) (h : s.Good) : (writeTarget tg v s).Good := by
  cases tg with
  | cmd => exact issue_good v h
  | frame k => exact ⟨h.cfg, h.msg, h.sym, h.inFlight, h.hamSyn, h.vitInfo⟩
  | msg w =>
    exact ⟨h.cfg, writeWord_wf (by simp [unpackBits]) h.msg, h.sym, h.inFlight, h.hamSyn, h.vitInfo⟩
  | sym w =>
    exact ⟨h.cfg, h.msg, writeWord_wf (by simp [unpackSymbols]) h.sym, h.inFlight, h.hamSyn, h.vitInfo⟩
  | status | hamSyn | vitInfo | param | reserved => exact h

theorem hostWrite_good {addr width : Nat} {v : Word} (h : s.Good)
    (hw : hostWrite addr width v s = .next t) : t.Good := by
  obtain ⟨off, -, -, rfl⟩ := hostWrite_next hw
  exact writeTarget_good _ v h

theorem hostRead_good {addr width : Nat} (h : s.Good) (hr : hostRead addr width s = .next t) : t.Good := by
  obtain ⟨off, -, ha⟩ := hostRead_next hr
  obtain ⟨-, -, rfl⟩ | ⟨-, v, -, rfl⟩ := readAccess_next ha <;>
    exact ⟨h.cfg, h.msg, h.sym, h.inFlight, h.hamSyn, h.vitInfo⟩

/-- VIT_DEC of 2N symbols, N at most NMAX, writes N elements of MSG and a metric of at most 2N. -/
theorem finishDecode_good (inv strict : Bool) {xs : List Symbol} (hxs : xs.length / 2 ≤ s.cfg.nmax)
    (h : s.Good) : (finishDecode strict (buildTrellis inv xs) s).Good := by
  have hmetric (r : StateIx) : (nodeAt (finalColumn (buildTrellis inv xs)) r).pm ≤ 2 * s.cfg.nmax :=
    (finalColumn_buildTrellis_pmAtMost inv xs r).trans (by omega)
  obtain ⟨-, he⟩ | ⟨r, -, ⟨-, -, he⟩ | ⟨-, he⟩⟩ :=
    finishDecode_cases strict (buildTrellis inv xs) s <;> rw [he]
  · exact good_of_idle h.cfg h.msg h.sym rfl h.hamSyn (resetFor_good h.cfg).vitInfo
  · exact good_of_idle h.cfg h.msg h.sym rfl h.hamSyn (vitInfoOk_of_metric rfl (hmetric r))
  · refine good_of_idle h.cfg (Memory.writeBlock_wf (.inr ?_) h.msg) h.sym rfl h.hamSyn
      (vitInfoOk_of_metric rfl (hmetric r))
    rw [length_decodedMessage, Nat.zero_add]
    exact hxs

theorem exec_good {i : Instr} (h : s.Good) (he : exec i s = .next t) : t.Good := by
  cases i with
  | hamEnc len =>
    obtain ⟨-, rfl⟩ | ⟨-, rfl⟩ := execHamEnc_next he
    · exact h.reject _
    · exact good_of_idle h.cfg h.msg h.sym rfl h.hamSyn h.vitInfo
  | hamDec len =>
    obtain ⟨-, rfl⟩ | ⟨-, rfl⟩ := execHamDec_next he
    · exact h.reject _
    · exact good_of_idle h.cfg h.msg h.sym rfl
        (hamSynOk_of_report rfl (hamDecide_reportsCorrection s.cfg.conda s.frame)) h.vitInfo
  | convEnc inv len =>
    obtain ⟨-, rfl⟩ | ⟨hl, us, hus, rfl⟩ := execConvEnc_next he
    · exact h.reject _
    · have hlen := len_le_of_lengthOk_convEnc hl
      obtain ⟨hn, -⟩ := Memory.readBlock_ok hus
      refine good_of_idle h.cfg h.msg (Memory.writeBlock_wf (.inr ?_) h.sym) rfl h.hamSyn h.vitInfo
      rw [length_convolve]
      show 0 + 2 * us.length ≤ 2 * s.cfg.nmax
      omega
  | vitDec inv strict len =>
    obtain ⟨-, rfl⟩ | ⟨hl, xs, hxs, rfl⟩ := execVitDec_next he
    · exact h.reject _
    · have hlen := len_le_of_lengthOk_vitDec hl
      obtain ⟨hn, -⟩ := Memory.readBlock_ok hxs
      exact finishDecode_good inv strict (by omega) h

theorem engineTurn_good (h : s.Good) (he : engineTurn s = .next t) : t.Good := by
  obtain ⟨-, rfl⟩ | ⟨-, i, -, hi⟩ := engineTurn_next he
  · exact h
  · exact exec_good h hi

theorem step_good (h : s.Good) (hst : step s = .next t) : t.Good := by
  obtain ⟨-, he⟩ | ⟨rest, ⟨addr, width, -, hr⟩ | ⟨addr, width, v, -, hw⟩ | ⟨-, he⟩ | ⟨-, rfl⟩⟩ :=
    step_next hst
  · exact engineTurn_good h he
  · exact hostRead_good (h.withInputs rest) hr
  · exact hostWrite_good (h.withInputs rest) hw
  · exact engineTurn_good (h.withInputs rest) he
  · exact (h.withInputs rest).resetInput

end good

/-! ## Turns that answer, and the elements that stop them (R150, R151) -/

/-- A turn's outcome is a next state, or UnwrittenRead for an element of MSG or SYM that nothing has
written and of which `readsMsg` or `readsSym` holds. -/
def AnswersOrUnwritten (s : State) (readsMsg readsSym : Nat → Prop)
    (o : Host.Outcome State Fault Refusal) : Prop :=
  (∃ t, o = .next t) ∨
    (∃ k, o = .fault (.unwrittenRead .msg k) ∧ readsMsg k ∧ k < s.cfg.nmax ∧
      Memory.read s.msg k = none) ∨
    (∃ k, o = .fault (.unwrittenRead .sym k) ∧ readsSym k ∧ k < 2 * s.cfg.nmax ∧
      Memory.read s.sym k = none)

section outcomes

variable {s : State}

theorem AnswersOrUnwritten.mono {p q p' q' : Nat → Prop} {o : Host.Outcome State Fault Refusal}
    (h : AnswersOrUnwritten s p q o) (hp : ∀ k, p k → p' k) (hq : ∀ k, q k → q' k) :
    AnswersOrUnwritten s p' q' o := by
  obtain h | ⟨k, ho, hk, h⟩ | ⟨k, ho, hk, h⟩ := h
  · exact .inl h
  · exact .inr (.inl ⟨k, ho, hp k hk, h⟩)
  · exact .inr (.inr ⟨k, ho, hq k hk, h⟩)

/-- Which elements of MSG a command reads (R110). -/
def ReadsMsg (i : Instr) (k : Nat) : Prop := ∃ inv len, i = .convEnc inv len ∧ k < len.toNat

/-- Which elements of SYM a command reads (R127). -/
def ReadsSym (i : Instr) (k : Nat) : Prop := ∃ inv strict len, i = .vitDec inv strict len ∧ k < 2 * len.toNat

/-- A command of the right length ends, or names an operand that nothing has written. -/
theorem exec_answersOrUnwritten {i : Instr} (hl : lengthOk s.cfg.nmax i = true) :
    AnswersOrUnwritten s (ReadsMsg i) (ReadsSym i) (exec i s) := by
  cases i with
  | hamEnc len => exact .inl ⟨_, whenLengthOk_ok hl⟩
  | hamDec len => exact .inl ⟨_, whenLengthOk_ok hl⟩
  | convEnc inv len =>
    have hlen := len_le_of_lengthOk_convEnc hl
    cases hb : Memory.readBlock s.msg 0 len.toNat with
    | ok us => exact .inl ⟨_, (whenLengthOk_ok hl).trans (withMsg_ok hb)⟩
    | error k =>
      obtain ⟨-, hk, hnone, -⟩ := Memory.readBlock_error hb
      rw [Nat.zero_add] at hk
      exact .inr (.inl ⟨k, (whenLengthOk_ok hl).trans (withMsg_error hb), ⟨inv, len, rfl, hk⟩,
        hk.trans_le hlen, hnone⟩)
  | vitDec inv strict len =>
    have hlen := len_le_of_lengthOk_vitDec hl
    cases hb : Memory.readBlock s.sym 0 (2 * len.toNat) with
    | ok xs => exact .inl ⟨_, (whenLengthOk_ok hl).trans (withSym_ok hb)⟩
    | error k =>
      obtain ⟨-, hk, hnone, -⟩ := Memory.readBlock_error hb
      rw [Nat.zero_add] at hk
      exact .inr (.inr ⟨k, (whenLengthOk_ok hl).trans (withSym_error hb), ⟨inv, strict, len, rfl, hk⟩,
        by omega, hnone⟩)

/-- The engine's turn of a good state answers, or stops at an operand of the command in flight. -/
theorem engineTurn_answersOrUnwritten (h : s.inFlightOk = true) :
    AnswersOrUnwritten s (fun k => s.busy = true ∧ ∃ i, fetch s = .ok i ∧ ReadsMsg i k)
      (fun k => s.busy = true ∧ ∃ i, fetch s = .ok i ∧ ReadsSym i k) (engineTurn s) := by
  cases hb : s.busy with
  | false => exact .inl ⟨s, engineTurn_idle hb⟩
  | true =>
    obtain ⟨i, hf, hl⟩ := fetch_of_inFlightOk h hb
    rw [engineTurn_busy hb hf]
    exact (exec_answersOrUnwritten hl).mono (fun _ hk => ⟨rfl, i, hf, hk⟩) fun _ hk => ⟨rfl, i, hf, hk⟩

/-- A supported host read answers, or stops at an element of the word it reads from an idle block. -/
theorem hostRead_answersOrUnwritten {off : Nat} (hc : s.cfg.wf) (h4 : off % 4 = 0) (hoff : off < windowSize) :
    AnswersOrUnwritten s (fun k => s.busy = false ∧ off = 0x1000 + 4 * (k / 32))
      (fun k => s.busy = false ∧ off = 0x2000 + 4 * (k / 16)) (hostRead (s.cfg.base + off) 4 s) := by
  rw [hostRead_at hc h4 hoff]
  cases hb : s.busy && (targetAt off).isBuffer with
  | true => exact .inl ⟨_, readAccess_free hb⟩
  | false =>
    cases htg : targetAt off with
    | msg w =>
      rw [htg, Target.isBuffer, Bool.and_true] at hb
      cases hr : Memory.readBlock s.msg (32 * w) (elementsIn s.cfg.nmax 32 w) with
      | ok bs => exact .inl ⟨_, readAccess_ok (by rw [hb]; rfl) (readMsgWord_ok hr)⟩
      | error k =>
        obtain ⟨rfl, hk, hnone⟩ := Memory.readWord_error (by decide) hr
        exact .inr (.inl ⟨k, readAccess_error (by rw [hb]; rfl) (readMsgWord_error hr),
          ⟨hb, ((targetAt_eq_msg h4).1 htg).1⟩, hk, hnone⟩)
    | sym w =>
      rw [htg, Target.isBuffer, Bool.and_true] at hb
      cases hr : Memory.readBlock s.sym (16 * w) (elementsIn (2 * s.cfg.nmax) 16 w) with
      | ok xs => exact .inl ⟨_, readAccess_ok (by rw [hb]; rfl) (readSymWord_ok hr)⟩
      | error k =>
        obtain ⟨rfl, hk, hnone⟩ := Memory.readWord_error (by decide) hr
        exact .inr (.inr ⟨k, readAccess_error (by rw [hb]; rfl) (readSymWord_error hr),
          ⟨hb, ((targetAt_eq_sym h4).1 htg).1⟩, hk, hnone⟩)
    | _ => exact .inl ⟨_, readAccess_ok (by rw [← htg]; exact hb) rfl⟩

/-- A supported host write answers, or is a hazard: one of an operand buffer while BUSY = 1 (R154). -/
theorem hostWrite_answersOrHazard {off : Nat} {v : Word} (hc : s.cfg.wf) (h4 : off % 4 = 0)
    (hoff : off < windowSize) :
    (∃ t, hostWrite (s.cfg.base + off) 4 v s = .next t) ∨
      (s.busy = true ∧ Claims.IsBufferOffset off ∧
        hostWrite (s.cfg.base + off) 4 v s = .fault (.hostHazard off)) := by
  rw [hostWrite_at hc h4 hoff]
  cases hb : s.busy && (targetAt off).isBuffer with
  | false => exact .inl ⟨_, writeAccess_ok hb⟩
  | true =>
    obtain ⟨hbusy, hbuf⟩ := Bool.and_eq_true_iff.1 hb
    exact .inr ⟨hbusy, (isBuffer_targetAt h4).1 hbuf, writeAccess_hazard hb⟩

end outcomes

/-- An access inside the window is one at an aligned offset of it. -/
theorem offset_of_supported {c : Config} {addr : Nat} (hc : c.wf) (h4 : addr % 4 = 0) (hlo : c.base ≤ addr)
    (hhi : addr < c.base + 0x4000) : ∃ off, addr = c.base + off ∧ off % 4 = 0 ∧ off < windowSize := by
  obtain ⟨-, -, hbase⟩ := hc
  exact ⟨addr - c.base, by omega, by omega, by unfold windowSize; omega⟩

section turnOutcomes

variable {s : State} {off : Nat} {rest : List Input}

theorem step_engine_answersOrUnwritten (hg : s.Good)
    (hin : s.inputs = [] ∨ ∃ rest, s.inputs = .engine :: rest) :
    AnswersOrUnwritten s (Claims.TurnReadsMsg s) (Claims.TurnReadsSym s) (step s) := by
  have hmsg : ∀ k, (s.busy = true ∧ ∃ i, fetch s = .ok i ∧ ReadsMsg i k) → Claims.TurnReadsMsg s k := by
    rintro k ⟨hb, i, hf, inv, len, rfl, hk⟩
    exact .inr ⟨inv, len, ⟨hb, hin, hf⟩, hk⟩
  have hsym : ∀ k, (s.busy = true ∧ ∃ i, fetch s = .ok i ∧ ReadsSym i k) → Claims.TurnReadsSym s k := by
    rintro k ⟨hb, i, hf, inv, strict, len, rfl, hk⟩
    exact .inr ⟨inv, strict, len, ⟨hb, hin, hf⟩, hk⟩
  obtain h | ⟨rest, h⟩ := hin
  · rw [step_of_noTurn h]
    exact (engineTurn_answersOrUnwritten hg.inFlight).mono hmsg hsym
  · rw [step_of_engine h]
    exact (engineTurn_answersOrUnwritten (s := { s with inputs := rest }) hg.inFlight).mono hmsg hsym

theorem step_read_answersOrUnwritten (hc : s.cfg.wf) (h4 : off % 4 = 0) (hoff : off < windowSize)
    (hin : s.inputs = .read (s.cfg.base + off) 4 :: rest) :
    AnswersOrUnwritten s (Claims.TurnReadsMsg s) (Claims.TurnReadsSym s) (step s) := by
  rw [step_of_read hin]
  refine (hostRead_answersOrUnwritten (s := { s with inputs := rest }) hc h4 hoff).mono ?_ ?_
  · rintro k ⟨hb, rfl⟩
    exact .inl ⟨hb, rest, hin⟩
  · rintro k ⟨hb, rfl⟩
    exact .inl ⟨hb, rest, hin⟩

theorem step_write_answersOrHazard {v : Word} (hc : s.cfg.wf) (h4 : off % 4 = 0) (hoff : off < windowSize)
    (hin : s.inputs = .write (s.cfg.base + off) 4 v :: rest) :
    (∃ t, step s = .next t) ∨
      (s.busy = true ∧ Claims.IsBufferOffset off ∧ step s = .fault (.hostHazard off)) := by
  rw [step_of_write hin]
  exact hostWrite_answersOrHazard (s := { s with inputs := rest }) hc h4 hoff

end turnOutcomes

/-! ## The statements -/

/-- Settles O17, by one lemma for each kind of turn that `step_next` names. -/
theorem stepKeepsGood : Obligations.StepKeepsGood :=
  fun _ _ h hst => step_good h hst

/-- Settles O19: each kind of turn answers, or stops for the cause its lemma names. -/
theorem supportedTurnsHaveAnEffect : Obligations.SupportedTurnsHaveAnEffect := by
  intro s hg hsup
  obtain ⟨turns, hin⟩ : ∃ turns, s.inputs = turns := ⟨_, rfl⟩
  cases turns with
  | nil => exact Or.imp_right .inr (step_engine_answersOrUnwritten hg (.inl hin))
  | cons inp rest =>
    have hinp := hsup inp rest hin
    cases inp with
    | read addr width =>
      obtain ⟨rfl, h4, hlo, hhi⟩ := hinp
      obtain ⟨off, rfl, hoff4, hoff⟩ := offset_of_supported hg.cfg h4 hlo hhi
      exact Or.imp_right .inr (step_read_answersOrUnwritten hg.cfg hoff4 hoff hin)
    | write addr width v =>
      obtain ⟨rfl, h4, hlo, hhi⟩ := hinp
      obtain ⟨off, rfl, hoff4, hoff⟩ := offset_of_supported hg.cfg h4 hlo hhi
      refine (step_write_answersOrHazard hg.cfg hoff4 hoff hin).imp_right ?_
      rintro ⟨hb, hbuf, hfault⟩
      exact .inl ⟨_, v, rest, hin, hb, by rwa [Nat.add_sub_cancel_left],
        by rwa [Nat.add_sub_cancel_left]⟩
    | engine => exact Or.imp_right .inr (step_engine_answersOrUnwritten hg (.inr ⟨rest, hin⟩))
    | reset => exact .inl ⟨_, step_of_reset hin⟩

/-- Settles O20: a host read keeps STATUS, and so does a write of anything but CMD and the engine's
turn while nothing is in flight. -/
theorem statusChangesOnlyAtTheseEvents : Obligations.StatusChangesOnlyAtTheseEvents := by
  intro s t hst hne
  have hnot : ¬ SameStatus s t := fun ⟨hr, hb, ho⟩ =>
    hne.elim (· hr) fun h => h.elim (· hb) (· ho)
  obtain ⟨hin, he⟩ | ⟨rest, ⟨addr, width, -, hr⟩ | ⟨addr, width, v, hin, hw⟩ | ⟨hin, he⟩ | ⟨hin, -⟩⟩ :=
    step_next hst
  · exact .inr (.inl ⟨(engineTurn_status he).resolve_right hnot, .inl hin⟩)
  · exact absurd (hostRead_keeps_status hr) hnot
  · obtain ⟨rfl, rfl⟩ := (hostWrite_status hw).resolve_right hnot
    exact .inl ⟨v, rest, hin⟩
  · exact .inr (.inl ⟨(engineTurn_status he).resolve_right hnot, .inr ⟨rest, hin⟩⟩)
  · exact .inr (.inr ⟨rest, hin⟩)

/-- Settles O26: the word names its first unwritten element. -/
theorem hostReadOfUnwrittenElementFaults : Obligations.HostReadOfUnwrittenElementFaults := by
  intro s w rest hc hb
  have hidle (off : Nat) : (s.busy && (targetAt off).isBuffer) = false := by rw [hb, Bool.false_and]
  constructor
  · intro hw hin hex
    obtain ⟨n, hn⟩ := Memory.readWord_of_unwritten (by decide) hex
    obtain ⟨hdiv, hlt, hnone⟩ := Memory.readWord_error (by decide) hn
    have htg : targetAt (0x1000 + 4 * w) = .msg w := (targetAt_eq_msg (by omega)).2 ⟨rfl, hw⟩
    exact ⟨n, hdiv, hlt, hnone, step_read_error hc (by omega) (by unfold windowSize; omega) hin (hidle _)
      (htg ▸ readMsgWord_error hn)⟩
  · intro hw hin hex
    obtain ⟨k, hk⟩ := Memory.readWord_of_unwritten (by decide) hex
    obtain ⟨hdiv, hlt, hnone⟩ := Memory.readWord_error (by decide) hk
    have htg : targetAt (0x2000 + 4 * w) = .sym w := (targetAt_eq_sym (by omega)).2 ⟨rfl, hw⟩
    exact ⟨k, hdiv, hlt, hnone, step_read_error hc (by omega) (by unfold windowSize; omega) hin (hidle _)
      (htg ▸ readSymWord_error hk)⟩

/-- Settles O28, by the fields of STATUS's word and the codes of R25. -/
theorem statusReadsItsFields : Obligations.StatusReadsItsFields := by
  intro s rest hc
  refine ⟨fun hin => ⟨statusWord s, step_read_ok hc rfl (by decide) hin (Bool.and_false _) rfl, ?_,
    busy_statusWord s, ovr_statusWord s, reserved_statusWord s⟩,
    fun v hin => step_write_ignored hc rfl (by decide) hin (by decide) rfl⟩
  rw [result_statusWord]
  cases s.result <;> rfl

/-- Settles O29, by the fields of PARAM's word. -/
theorem paramReadsTheBuild : Obligations.ParamReadsTheBuild := by
  intro s rest hc
  refine ⟨fun hin => ⟨paramWord s.cfg, step_read_ok hc rfl (by decide) hin (Bool.and_false _) rfl,
    nmax_paramWord s.cfg hc, ?_, reserved_paramWord s.cfg⟩,
    fun v hin => step_write_ignored hc rfl (by decide) hin (by decide) rfl⟩
  rw [condaSix_paramWord, beq_iff_eq]

/-- Settles O30: none of these offsets is a buffer's, so BUSY does not matter. -/
theorem reportRegistersAndReservedOffsets : Obligations.ReportRegistersAndReservedOffsets := by
  intro s off rest hc h4 hoff
  obtain rfl | rfl | rfl | hres := hoff
  · exact ⟨fun hin => step_read_ok hc h4 (by decide) hin (Bool.and_false _) rfl,
      fun v h0 _ => absurd rfl h0⟩
  · exact ⟨fun hin => step_read_ok hc h4 (by decide) hin (Bool.and_false _) rfl,
      fun v _ hin => step_write_ignored hc h4 (by decide) hin (by decide) rfl⟩
  · exact ⟨fun hin => step_read_ok hc h4 (by decide) hin (Bool.and_false _) rfl,
      fun v _ hin => step_write_ignored hc h4 (by decide) hin (by decide) rfl⟩
  · have htg := targetAt_of_reserved hres
    unfold Claims.IsReservedOffset at hres
    have hlt : off < windowSize := by unfold windowSize; omega
    rw [if_neg (by omega), if_neg (by omega)]
    exact ⟨fun hin => step_read_ok hc h4 hlt hin (by rw [htg]; exact Bool.and_false _) (by rw [htg]; rfl),
      fun v _ hin => step_write_ignored hc h4 hlt hin (by simp [htg]) (by rw [htg]; rfl)⟩

/-- Settles O51: the block of operands names its first unwritten element. -/
theorem commandsFaultOnUnwrittenOperands : Obligations.CommandsFaultOnUnwrittenOperands := by
  intro s len k
  constructor
  · intro inv hl hk hnone hbefore
    exact (whenLengthOk_ok hl).trans (withMsg_error (Memory.readBlock_of_firstUnwritten hk hnone hbefore))
  · intro inv strict hl hk hnone hbefore
    exact (whenLengthOk_ok hl).trans (withSym_error (Memory.readBlock_of_firstUnwritten hk hnone hbefore))

/-- Settles O10: both turns are the engine's, with the command of CUR's word in flight. -/
theorem engineTurnRunsTheCommandInCur : Obligations.EngineTurnRunsTheCommandInCur := by
  intro s i hb hf
  refine ⟨fun rest hin => ?_, fun hin => ?_⟩
  · rw [step_of_engine hin]; exact engineTurn_busy hb hf
  · rw [step_of_noTurn hin]; exact engineTurn_busy hb hf

/-- Settles O14: the reset turn leaves the state of `State.resetInput`, with empty buffers. -/
theorem resetInputRestoresResetValues : Obligations.ResetInputRestoresResetValues :=
  fun _ _ hin => ⟨_, step_of_reset hin, rfl, rfl, rfl, rfl, rfl, rfl, rfl, rfl,
    fun _ => rfl, fun _ => rfl⟩

/-- Settles O15: the six registers are 0 after reset, and nothing is in flight. -/
theorem registersReadZeroAfterReset : Obligations.RegistersReadZeroAfterReset := by
  intro c off before hc hmem
  have hoff : off % 4 = 0 ∧ off < windowSize := by revert off; decide
  obtain ⟨h4, hlt⟩ := hoff
  exact ⟨_, step_read_ok (s := { State.resetFor c with inputs := [.read (c.base + off) 4], readData := before })
    hc h4 hlt rfl (Bool.false_and _) (readTarget_modelFields.trans (readTarget_resetFor c hmem)), rfl⟩

end Sys2Proof.Machine

/-! The statements about the host's accesses to the operand buffers and about the command word on the
bus (R38 to R43, R46, R54 to R58). -/

namespace Sys2Proof.Machine

/-! ## The command word on byte lanes (R43, R54) -/

/-- The four byte lanes of a word carry that word: bit `j` is bit `j % 8` of lane `j / 8`. -/
theorem wordOfLanes_lanesOfWord (w : Word) :
    wordOfLanes (w.extractLsb' 0 8) (w.extractLsb' 8 8) (w.extractLsb' 16 8) (w.extractLsb' 24 8) = w := by
  refine BitVec.eq_of_getLsbD_eq fun j hj => ?_
  simp only [wordOfLanes, BitVec.getLsbD_or, getLsbD_place, BitVec.getLsbD_extractLsb', hj]
  obtain h | h | h | h : j < 8 ∨ (8 ≤ j ∧ j < 16) ∨ (16 ≤ j ∧ j < 24) ∨ 24 ≤ j := by omega
  · simp [h, show ¬ 8 ≤ j by omega, show ¬ 16 ≤ j by omega, show ¬ 24 ≤ j by omega]
  · simp [h, show j - 8 < 8 by omega, show ¬ j < 8 by omega, show ¬ 16 ≤ j by omega,
      show ¬ 24 ≤ j by omega]
  · simp [h, show j - 16 < 8 by omega, show ¬ j - 8 < 8 by omega, show ¬ j < 8 by omega,
      show ¬ 24 ≤ j by omega]
  · simp [h, show j - 24 < 8 by omega, show ¬ j - 16 < 8 by omega, show ¬ j - 8 < 8 by omega,
      show ¬ j < 8 by omega]

theorem decodeBytes_lanesOfWord (w : Word) : decodeBytes (lanesOfWord w) = decode w :=
  congrArg decode (wordOfLanes_lanesOfWord w)

/-- The decoder reads the row of R58 that the encoder wrote, and back from its fields the operands. -/
theorem decode_encode (i : Instr) : decode (encode i) = .ok i := by
  cases i with
  | hamEnc len | hamDec len => simp [encode, decode, needNoInv, needNoStrict]
  | convEnc inv len => simp [encode, decode, needNoStrict]
  | vitDec inv strict len => simp [encode, decode]

/-! ## Accesses that are refused and accesses that write -/

theorem locate_unsupported {c : Config} {addr width : Nat} (h : width ≠ 4 ∨ addr % 4 ≠ 0) :
    locate c addr width = .error (.unsupportedAccess addr width) := if_pos h

/-- A host write at an offset that is no hazard writes that offset's target. -/
theorem step_write_ok {s : State} {off : Nat} {v : Word} {rest : List Input} (hc : s.cfg.wf)
    (h4 : off % 4 = 0) (hoff : off < windowSize)
    (hin : s.inputs = .write (s.cfg.base + off) 4 v :: rest)
    (hb : (s.busy && (targetAt off).isBuffer) = false) :
    step s = .next (writeTarget (targetAt off) v { s with inputs := rest }) :=
  (step_of_write hin).trans ((hostWrite_at (s := { s with inputs := rest }) hc h4 hoff).trans
    (writeAccess_ok hb))

/-! ## FRAME0..2 (R38) -/

theorem targetAt_frame {k : Nat} (hk : k < 3) : targetAt (0x010 + 4 * k) = .frame k := by
  revert k; decide

theorem getLsbD_frameWord (f : Frame) (k j : Nat) :
    (frameWord f k).getLsbD j = (decide (j < 32) && f.getLsbD (32 * k + j)) :=
  BitVec.getLsbD_extractLsb' ..

theorem getLsbD_frameMask (k : Nat) {i : Nat} (hi : i < 85) :
    (frameMask k).getLsbD i = decide (i / 32 = k) := by
  rw [frameMask, getLsbD_place, BitVec.getLsbD_allOnes, ← Bool.decide_and, ← Bool.decide_and]
  exact decide_eq_decide.2 (by omega)

/-- A bit of FRAME after a write of FRAMEk. -/
theorem getLsbD_writeFrameWord (f : Frame) (k : Nat) (v : Word) {i : Nat} (hi : i < 85) :
    (writeFrameWord f k v).getLsbD i = if i / 32 = k then v.getLsbD (i % 32) else f.getLsbD i := by
  rw [writeFrameWord, BitVec.getLsbD_or, BitVec.getLsbD_and, BitVec.getLsbD_not,
    getLsbD_frameMask k hi, getLsbD_place]
  by_cases h : i / 32 = k
  · have hmod : i - 32 * k = i % 32 := by omega
    simp [h, hi, hmod, show 32 * k ≤ i by omega]
  · by_cases hle : 32 * k ≤ i
    · simp [h, hi, BitVec.getLsbD_of_ge v (i - 32 * k) (by omega)]
    · simp [h, hi, hle]

/-! ## Packing of elements (R39, R40) -/

/-- A bit of a word of bits is the element of that index, and 0 past the elements. -/
theorem getLsbD_packBits (bs : List Bool) {j : Nat} (hj : j < 32) :
    (packBits bs).getLsbD j = bs[j]?.getD false := by
  induction bs generalizing j with
  | nil => simp [packBits]
  | cons b bs ih =>
    rw [packBits, BitVec.getLsbD_or, BitVec.getLsbD_shiftLeft, getLsbD_place, BitVec.getLsbD_ofBool]
    cases j with
    | zero => simp
    | succ j => simp [hj, ih (show j < 32 by omega)]

/-- A bit of a word of codes is a bit of the element of half that index, and 0 past the elements. -/
theorem getLsbD_packSymbols (xs : List Symbol) {j : Nat} (hj : j < 32) :
    (packSymbols xs).getLsbD j = (xs[j / 2]?.getD 0).getLsbD (j % 2) := by
  induction xs generalizing j with
  | nil => simp [packSymbols]
  | cons x xs ih =>
    rw [packSymbols, BitVec.getLsbD_or, BitVec.getLsbD_shiftLeft, getLsbD_place]
    by_cases h : j < 2
    · simp [h, hj, Nat.div_eq_of_lt h, Nat.mod_eq_of_lt h]
    · obtain ⟨i, rfl⟩ := Nat.exists_eq_add_of_le' (Nat.le_of_not_lt h)
      simp [hj, ih (show i < 32 by omega)]

/-- A field of a word of codes is the element of that index, and 0 past the elements. -/
theorem extractLsb'_packSymbols (xs : List Symbol) {f : Nat} (hf : f < 16) :
    (packSymbols xs).extractLsb' (2 * f) 2 = xs[f]?.getD 0 := by
  refine BitVec.eq_of_getLsbD_eq fun i hi => ?_
  rw [BitVec.getLsbD_extractLsb', getLsbD_packSymbols xs (by omega),
    show (2 * f + i) / 2 = f by omega, show (2 * f + i) % 2 = i by omega]
  simp [hi]

/-- A word is determined by its 2-bit fields. -/
theorem getLsbD_eq_field (v : Word) (j : Nat) :
    v.getLsbD j = (v.extractLsb' (2 * (j / 2)) 2).getLsbD (j % 2) := by
  rw [BitVec.getLsbD_extractLsb', Nat.div_add_mod, decide_eq_true (Nat.mod_lt j Nat.two_pos), Bool.true_and]

/-! ## A word of a window on its buffer (R39, R40)

`per` elements to a word and `total` in the buffer; word `w` maps the elements `k` with
`k / per = w` and `k < total`. -/

section windowWords

variable {α : Type} {m : Memory α} {per total w : Nat}

/-- A write of a word sets exactly the elements the word maps. -/
theorem Memory.read_writeWord (hp : 0 < per) (value : Nat → α) (k : Nat) :
    Memory.read (Memory.writeBlock m (per * w) ((List.range (elementsIn total per w)).map value)) k =
      if k / per = w ∧ k < total then some (value (k % per)) else Memory.read m k := by
  rw [Memory.read_writeBlock, List.length_map, List.length_range]
  by_cases h : k / per = w ∧ k < total
  · obtain ⟨hlo, hhi⟩ := (mem_elementsIn_iff hp).2 h
    have hmod : k - per * w = k % per := by rw [← h.1, Nat.mod_eq_sub_mul_div]
    rw [if_pos h, if_pos ⟨hlo, hhi⟩, List.getElem?_map, List.getElem?_range (by omega), hmod]
    rfl
  · rw [if_neg h, if_neg (mt (mem_elementsIn_iff hp).1 h)]

/-- A word whose elements are all written can be read, and gives them in order. -/
theorem Memory.readWord_of_written
    (h : ∀ b < per, per * w + b < total → (Memory.read m (per * w + b)).isSome) :
    ∃ vs, Memory.readBlock m (per * w) (elementsIn total per w) = .ok vs ∧
      ∀ b < per, vs[b]? = if per * w + b < total then Memory.read m (per * w + b) else none := by
  obtain ⟨vs, hvs⟩ := Memory.readBlock_of_written (m := m) (a := per * w) (n := elementsIn total per w)
    fun b hb => by
      rw [elementsIn] at hb
      exact h b (by omega) (by omega)
  obtain ⟨hlen, hread⟩ := Memory.readBlock_ok hvs
  refine ⟨vs, hvs, fun b hb => ?_⟩
  rw [elementsIn] at hlen hread
  split_ifs with ht
  · exact (hread b (by omega)).symm
  · exact List.getElem?_eq_none (by omega)

end windowWords

/-- Settles O3, by the encoder's fields and by the lanes carrying the word. -/
theorem decodeOfEncode : Obligations.DecodeOfEncode :=
  fun i => ⟨decode_encode i, (decodeBytes_lanesOfWord _).trans (decode_encode i)⟩

/-- Settles O23, bit by bit. -/
theorem frameRegistersPackTheFrame : Obligations.FrameRegistersPackTheFrame := by
  intro s k rest hc hb hk
  have htg := targetAt_frame hk
  have hidle : (s.busy && (targetAt (0x010 + 4 * k)).isBuffer) = false := by rw [hb, Bool.false_and]
  have hoff : 0x010 + 4 * k < windowSize := by unfold windowSize; omega
  constructor
  · intro v hin
    refine ⟨writeFrameWord s.frame k v, ?_, fun i hi => getLsbD_writeFrameWord s.frame k v hi⟩
    rw [step_write_ok hc (by omega) hoff hin hidle, htg]
    rfl
  · intro hin
    refine ⟨frameWord s.frame k, step_read_ok hc (by omega) hoff hin hidle (htg ▸ rfl), fun j hj => ?_⟩
    rw [getLsbD_frameWord, decide_eq_true hj, Bool.true_and]
    by_cases h : 32 * k + j < 85
    · simp [h]
    · simp [h, BitVec.getLsbD_of_ge s.frame _ (Nat.le_of_not_lt h)]

/-- Settles O24: a word of the MSG window holds 32 of its NMAX elements. -/
theorem msgWindowPacksBits : Obligations.MsgWindowPacksBits := by
  intro s w rest hc hb hw
  have htg : targetAt (0x1000 + 4 * w) = .msg w := (targetAt_eq_msg (by omega)).2 ⟨rfl, hw⟩
  have hidle : (s.busy && (targetAt (0x1000 + 4 * w)).isBuffer) = false := by rw [hb, Bool.false_and]
  have hoff : 0x1000 + 4 * w < windowSize := by unfold windowSize; omega
  constructor
  · intro v hin
    refine ⟨Memory.writeBlock s.msg (32 * w) (unpackBits (elementsIn s.cfg.nmax 32 w) v), ?_,
      Memory.read_writeWord (by decide) _⟩
    rw [step_write_ok hc (by omega) hoff hin hidle, htg]
    rfl
  · intro hin hwritten
    obtain ⟨bs, hbs, hget⟩ := Memory.readWord_of_written hwritten
    refine ⟨packBits bs, step_read_ok hc (by omega) hoff hin hidle (htg ▸ readMsgWord_ok hbs),
      fun b hb32 => ?_⟩
    rw [getLsbD_packBits bs hb32, hget b hb32]
    split_ifs <;> rfl

/-- Settles O25: a word of the SYM window holds 16 of its 2 NMAX elements. -/
theorem symWindowPacksCodes : Obligations.SymWindowPacksCodes := by
  intro s w rest hc hb hw
  have htg : targetAt (0x2000 + 4 * w) = .sym w := (targetAt_eq_sym (by omega)).2 ⟨rfl, hw⟩
  have hidle : (s.busy && (targetAt (0x2000 + 4 * w)).isBuffer) = false := by rw [hb, Bool.false_and]
  have hoff : 0x2000 + 4 * w < windowSize := by unfold windowSize; omega
  constructor
  · intro v hin
    refine ⟨Memory.writeBlock s.sym (16 * w) (unpackSymbols (elementsIn (2 * s.cfg.nmax) 16 w) v), ?_,
      Memory.read_writeWord (by decide) _⟩
    rw [step_write_ok hc (by omega) hoff hin hidle, htg]
    rfl
  · intro hin hwritten
    obtain ⟨xs, hxs, hget⟩ := Memory.readWord_of_written hwritten
    refine ⟨packSymbols xs, step_read_ok hc (by omega) hoff hin hidle (htg ▸ readSymWord_ok hxs),
      fun f hf => ?_⟩
    rw [extractLsb'_packSymbols xs hf, hget f hf]
    split_ifs <;> rfl

/-! ## A write and then a read of the same word (R161) -/

theorem isElementBit_frame (nmax : Nat) {k : Nat} (hk : k < 3) (j : Nat) :
    Claims.isElementBit nmax (0x010 + 4 * k) j = decide (32 * k + j < 85) := by
  rw [Claims.isElementBit, if_pos (by omega)]
  exact decide_eq_decide.2 (by omega)

theorem isElementBit_msg (nmax : Nat) {w : Nat} (hw : w < 512) (j : Nat) :
    Claims.isElementBit nmax (0x1000 + 4 * w) j = decide (32 * w + j < nmax) := by
  rw [Claims.isElementBit, if_neg (by omega), if_pos (by omega)]
  exact decide_eq_decide.2 (by omega)

theorem isElementBit_sym (nmax w j : Nat) :
    Claims.isElementBit nmax (0x2000 + 4 * w) j = decide (16 * w + j / 2 < 2 * nmax) := by
  rw [Claims.isElementBit, if_neg (by omega), if_neg (by omega)]
  exact decide_eq_decide.2 (by omega)

/-- The next two turns answer, and then the word read holds the element bits of `v` at an offset. -/
def ReadsBack (s : State) (off : Nat) (v : Word) : Prop :=
  ∃ s1 s2, step s = .next s1 ∧ step s1 = .next s2 ∧
    ∀ j < 32, s2.readData.getLsbD j = (Claims.isElementBit s.cfg.nmax off j && v.getLsbD j)

/-- The host's next two turns write a word at an offset and read it. -/
def WritesThenReads (s : State) (off : Nat) (v : Word) (rest : List Input) : Prop :=
  s.inputs = .write (s.cfg.base + off) 4 v :: .read (s.cfg.base + off) 4 :: rest

section readBack

variable {s : State} {v : Word} {rest : List Input}

theorem readsBack_frame {k : Nat} (hc : s.cfg.wf) (hb : s.busy = false) (hk : k < 3)
    (hin : WritesThenReads s (0x010 + 4 * k) v rest) : ReadsBack s (0x010 + 4 * k) v := by
  obtain ⟨f, hwrite, hf⟩ := (frameRegistersPackTheFrame s k _ hc hb hk).1 v hin
  obtain ⟨x, hread, hx⟩ := (frameRegistersPackTheFrame
    { s with frame := f, inputs := .read (s.cfg.base + (0x010 + 4 * k)) 4 :: rest }
    k rest hc hb hk).2 rfl
  refine ⟨_, _, hwrite, hread, fun j hj => (hx j hj).trans ?_⟩
  rw [isElementBit_frame _ hk]
  by_cases h : 32 * k + j < 85
  · rw [hf _ h, if_pos (by omega), Nat.mul_add_mod, Nat.mod_eq_of_lt hj]
  · simp [h]

theorem readsBack_msg {w : Nat} (hc : s.cfg.wf) (hb : s.busy = false) (hw : w < 512)
    (hin : WritesThenReads s (0x1000 + 4 * w) v rest) : ReadsBack s (0x1000 + 4 * w) v := by
  obtain ⟨m, hwrite, hm⟩ := (msgWindowPacksBits s w _ hc hb hw).1 v hin
  have hmapped {b : Nat} (hb32 : b < 32) (ht : 32 * w + b < s.cfg.nmax) :
      Memory.read m (32 * w + b) = some (v.getLsbD b) := by
    rw [hm, if_pos ⟨by omega, ht⟩, Nat.mul_add_mod, Nat.mod_eq_of_lt hb32]
  obtain ⟨x, hread, hx⟩ := (msgWindowPacksBits
    { s with msg := m, inputs := .read (s.cfg.base + (0x1000 + 4 * w)) 4 :: rest }
    w rest hc hb hw).2 rfl fun b hb32 ht => by rw [hmapped hb32 ht]; rfl
  refine ⟨_, _, hwrite, hread, fun j hj => (hx j hj).trans ?_⟩
  rw [isElementBit_msg _ hw]
  by_cases h : 32 * w + j < s.cfg.nmax
  · simp [h, hmapped hj h]
  · simp [h]

theorem readsBack_sym {w : Nat} (hc : s.cfg.wf) (hb : s.busy = false) (hw : w < 2048)
    (hin : WritesThenReads s (0x2000 + 4 * w) v rest) : ReadsBack s (0x2000 + 4 * w) v := by
  obtain ⟨m, hwrite, hm⟩ := (symWindowPacksCodes s w _ hc hb hw).1 v hin
  have hmapped {f : Nat} (hf : f < 16) (ht : 16 * w + f < 2 * s.cfg.nmax) :
      Memory.read m (16 * w + f) = some (v.extractLsb' (2 * f) 2) := by
    rw [hm, if_pos ⟨by omega, ht⟩, Nat.mul_add_mod, Nat.mod_eq_of_lt hf]
  obtain ⟨x, hread, hx⟩ := (symWindowPacksCodes
    { s with sym := m, inputs := .read (s.cfg.base + (0x2000 + 4 * w)) 4 :: rest }
    w rest hc hb hw).2 rfl fun f hf ht => by rw [hmapped hf ht]; rfl
  refine ⟨_, _, hwrite, hread, fun j hj => ?_⟩
  have hj16 : j / 2 < 16 := by omega
  rw [isElementBit_sym]
  refine (getLsbD_eq_field x j).trans ?_
  rw [hx (j / 2) hj16, getLsbD_eq_field v j]
  by_cases h : 16 * w + j / 2 < 2 * s.cfg.nmax
  · simp only [h, if_true, hmapped hj16 h, Option.getD_some, decide_true, Bool.true_and]
  · simp [h]

end readBack

/-- Settles O27: a buffer's offset is that of a FRAME register or of a word of a window. -/
theorem bufferWordReadsBackAsWritten : Obligations.BufferWordReadsBackAsWritten := by
  intro s off v rest hc hb hbuf h4 hin
  obtain ⟨hlo, hhi⟩ | ⟨hlo, hhi⟩ | ⟨hlo, hhi⟩ := hbuf
  · obtain ⟨k, rfl⟩ : ∃ k, off = 0x010 + 4 * k := ⟨(off - 0x010) / 4, by omega⟩
    exact readsBack_frame hc hb (by omega) hin
  · obtain ⟨w, rfl⟩ : ∃ w, off = 0x1000 + 4 * w := ⟨(off - 0x1000) / 4, by omega⟩
    exact readsBack_msg hc hb (by omega) hin
  · obtain ⟨w, rfl⟩ : ∃ w, off = 0x2000 + 4 * w := ⟨(off - 0x2000) / 4, by omega⟩
    exact readsBack_sym hc hb (by omega) hin

/-- Settles O31, by what a host read that answers can do. -/
theorem hostReadHasNoSideEffect : Obligations.HostReadHasNoSideEffect := by
  intro s t addr width rest hin hstep
  obtain ⟨off, -, hr⟩ := hostRead_next ((step_of_read hin).symm.trans hstep)
  obtain ⟨-, -, rfl⟩ | ⟨-, v, -, rfl⟩ := readAccess_next hr <;> rfl

/-- Settles O34: such an access reaches no offset. -/
theorem unsupportedAccessesAreRefused : Obligations.UnsupportedAccessesAreRefused := by
  intro s addr width rest h
  refine ⟨fun hin => ?_, fun v hin => ?_⟩
  · rw [step_of_read hin, hostRead, locate_unsupported h]
  · rw [step_of_write hin, hostWrite, locate_unsupported h]

end Sys2Proof.Machine

/-! The statements about the command word and its issue (R57 to R61, R71 to R74), the codes an accepted
command ends in (R135), and a POLL loop of the host assembly (R80). -/

namespace Sys2Proof

/-! ## The word of a command (R55 to R60, R79) -/

/-- LEN is placed above the rest of the word, which does not depend on it. -/
theorem commandWord_eq_or (op : BitVec 4) (inv strict : Bool) (len : Len) :
    commandWord op inv strict len = len.setWidth 32 <<< 16 ||| commandWord op inv strict 0 := by
  have hlen : place 32 16 (0 : Len) = 0#32 := rfl
  rw [commandWord, commandWord, hlen, BitVec.zero_or, BitVec.or_assoc, BitVec.or_assoc, BitVec.or_assoc]
  rfl

/-- The fields of a word with RSV = 0 are all of its bits. -/
theorem commandWord_fields {w : Word} (h : rsvField w = 0#10) :
    commandWord (opField w) (invField w) (strictField w) (lenField w) = w := by
  refine BitVec.eq_of_getLsbD_eq fun j hj => ?_
  rw [getLsbD_commandWord, opField, lenField, BitVec.getLsbD_extractLsb', BitVec.getLsbD_extractLsb']
  obtain hop | rfl | rfl | hrsv | hlen : j < 4 ∨ j = 4 ∨ j = 5 ∨ (6 ≤ j ∧ j < 16) ∨ 16 ≤ j := by omega
  · simp [hj, hop, show ¬ 16 ≤ j by omega, show ¬ j = 5 by omega, show ¬ j = 4 by omega]
  · simp [invField]
  · simp [strictField]
  · have hbit : w.getLsbD (6 + (j - 6)) = (0#10).getLsbD (j - 6) := by
      rw [← h, rsvField, BitVec.getLsbD_extractLsb']
      simp [show j - 6 < 10 by omega]
    rw [Nat.add_sub_cancel' hrsv.1, BitVec.getLsbD_zero] at hbit
    simp [hbit, show ¬ 16 ≤ j by omega, show ¬ j = 5 by omega, show ¬ j = 4 by omega,
      show ¬ j < 4 by omega]
  · simp [hj, hlen, show j - 16 < 16 by omega, show ¬ j = 5 by omega, show ¬ j = 4 by omega,
      show ¬ j < 4 by omega]

/-- The rows of R58: the words that stand for a command, and which command that is. -/
theorem decode_eq_ok_iff {w : Word} {i : Instr} :
    decode w = .ok i ↔ rsvField w = 0#10 ∧
      ((opField w = 1 ∧ invField w = false ∧ strictField w = false ∧ i = .hamEnc (lenField w)) ∨
        (opField w = 2 ∧ invField w = false ∧ strictField w = false ∧ i = .hamDec (lenField w)) ∨
        (opField w = 3 ∧ strictField w = false ∧ i = .convEnc (invField w) (lenField w)) ∨
        (opField w = 4 ∧ i = .vitDec (invField w) (strictField w) (lenField w))) := by
  by_cases hrsv : rsvField w = 0#10
  · rw [decode, if_neg (not_not_intro hrsv)]
    unfold needNoInv needNoStrict
    split_ifs <;> simp [*, eq_comm (a := i)]
  · exact iff_of_false (fun h => hrsv (rsvField_of_decode h)) fun h => hrsv h.1

/-- The encoder gives back the fields the decoder read. -/
theorem encode_of_decode {w : Word} {i : Instr} (h : decode w = .ok i) : encode i = w := by
  obtain ⟨hrsv, hrow⟩ := decode_eq_ok_iff.1 h
  have hfields := commandWord_fields hrsv
  obtain ⟨hop, hinv, hstrict, rfl⟩ | ⟨hop, hinv, hstrict, rfl⟩ | ⟨hop, hstrict, rfl⟩ | ⟨hop, rfl⟩ := hrow
  · rwa [hop, hinv, hstrict] at hfields
  · rwa [hop, hinv, hstrict] at hfields
  · rwa [hop, hstrict] at hfields
  · rwa [hop] at hfields

/-- The decoder reads LEN of every command from the same field (R55). -/
theorem len_of_decode {w : Word} {i : Instr} (h : decode w = .ok i) : i.len = lenField w := by
  obtain ⟨-, ⟨-, -, -, rfl⟩ | ⟨-, -, -, rfl⟩ | ⟨-, -, rfl⟩ | ⟨-, rfl⟩⟩ := decode_eq_ok_iff.1 h <;> rfl

/-- A word stands for some command exactly when RSV is 0, OP is one of the four and no flag is set that
the command's row does not use. -/
theorem exists_decode_eq_ok_iff {w : Word} :
    (∃ i, decode w = .ok i) ↔ rsvField w = 0#10 ∧
      ((opField w = 1 ∧ invField w = false ∧ strictField w = false) ∨
        (opField w = 2 ∧ invField w = false ∧ strictField w = false) ∨
        (opField w = 3 ∧ strictField w = false) ∨ opField w = 4) := by
  simp only [decode_eq_ok_iff, exists_and_left, exists_or, exists_eq, and_true]

/-- A word is refused exactly when it stands for no command. -/
theorem exists_decode_eq_error_iff {w : Word} :
    (∃ e, decode w = .error e) ↔ ¬ ∃ i, decode w = .ok i := by
  cases decode w <;> simp

end Sys2Proof

namespace Sys2Proof.Machine

/-! ## The issue of a command (R71 to R74) -/

section commandIssue

variable {s : State} {w : Word} {rest : List Input} {i : Instr}

/-- A host write to the first word of the window issues a command, whatever is in flight. -/
theorem step_write_cmd (hc : s.cfg.wf) (hin : s.inputs = .write s.cfg.base 4 w :: rest) :
    step s = .next (issue w { s with inputs := rest }) :=
  step_write_ok (off := 0) hc rfl (by decide) hin (Bool.and_false _)

theorem issue_busy (hb : s.busy = true) : issue w s = s.overrun := by rw [issue, if_pos hb]

theorem issue_illegal (hb : s.busy = false) {e : DecodeError} (hd : decode w = .error e) :
    issue w s = s.reject .illegalCommand := by simp [issue, hb, hd]

theorem issue_wrongLength (hb : s.busy = false) (hd : decode w = .ok i)
    (hl : ¬ i.WellFormed s.cfg.nmax) : issue w s = s.reject .invalidLength := by simp [issue, hb, hd, hl]

theorem issue_accepts (hb : s.busy = false) (hd : decode w = .ok i) (hl : i.WellFormed s.cfg.nmax) :
    issue w s = s.accept w := by simp [issue, hb, hd, hl]

/-- A command rejected on an idle block leaves BUSY as it was (R72). -/
theorem reject_idle (hb : s.busy = false) (c : ResultCode) :
    s.reject c = { s with result := c, ovr := false } := by rw [State.reject, ← hb]

/-- The engine's turn with a legal word latched in CUR runs that word's command. -/
theorem step_engine_of_latched (hb : s.busy = true) (hcur : s.cur = curOfWord w)
    (hd : decode w = .ok i) (hin : s.inputs = .engine :: rest) :
    step s = exec i { s with inputs := rest } := by
  have hf : fetch s = .ok i := by rw [fetch, hcur, decode_curWord hd]
  exact (step_of_engine hin).trans (engineTurn_busy (s := { s with inputs := rest }) hb hf)

/-- The meaning of each command begins with the check of its LEN (R59). -/
theorem exec_wrongLength (h : lengthOk s.cfg.nmax i = false) :
    exec i s = .next (s.reject .invalidLength) := by
  cases i with
  | hamEnc | hamDec | convEnc | vitDec => exact whenLengthOk_bad h

end commandIssue

/-! ## Reachability in the trellis (R119, R121, R129)

A node that was reached stays so, and both successors of a reached node are reached; hence state 0 is
reachable in every column, and the final selection finds a state. -/

/-- A fold has what the element `a` establishes, when every element keeps it. `Q` holds throughout. -/
theorem foldl_of_mem {α β : Type} {P Q : β → Prop} {f : β → α → β} {l : List α} {a : α} {b : β}
    (hmem : a ∈ l) (hQ : Q b) (keepsQ : ∀ b x, Q b → Q (f b x)) (keepsP : ∀ b x, P b → P (f b x))
    (establishes : ∀ b, Q b → P (f b a)) : P (l.foldl f b) := by
  obtain ⟨before, after, rfl⟩ := List.append_of_mem hmem
  rw [List.foldl_append, List.foldl_cons]
  have hbefore : Q (before.foldl f b) := List.foldlRecOn before f hQ fun b hb x _ => keepsQ b x hb
  exact List.foldlRecOn after f (establishes _ hbefore) fun b hb x _ => keepsP b x hb

/-- The loops over the states in ascending order meet every state. -/
theorem toNat_mem_range (r : StateIx) : r.toNat ∈ List.range numStates := List.mem_range.2 r.isLt

section reachability

variable (inv : Bool) (h : Bool × Bool) {col built : List Node} {r n : StateIx} (u : Bool)

theorem length_relaxEdge : (relaxEdge inv h col built r u).length = built.length := by
  unfold relaxEdge
  dsimp only
  split
  · rfl
  · exact List.length_set

theorem length_relaxState : (relaxState inv h col built r).length = built.length := by
  unfold relaxState
  split
  · rw [length_relaxEdge, length_relaxEdge]
  · rfl

theorem relaxEdge_keeps_reach (hn : (nodeAt built n).reach = true) :
    (nodeAt (relaxEdge inv h col built r u) n).reach = true := by
  unfold relaxEdge
  dsimp only
  split
  · exact hn
  · rw [nodeAt_set]
    split
    · rfl
    · exact hn

/-- An edge is passed over only when its end is reached already (R121). -/
theorem relaxEdge_reaches (hlen : built.length = numStates) :
    (nodeAt (relaxEdge inv h col built r u) (nextState r u)).reach = true := by
  unfold relaxEdge
  dsimp only
  split
  next hkeep => exact (Bool.and_eq_true_iff.1 hkeep).1
  next => rw [nodeAt_set, if_pos ⟨rfl, hlen ▸ (nextState r u).isLt⟩]

theorem relaxState_keeps_reach (hn : (nodeAt built n).reach = true) :
    (nodeAt (relaxState inv h col built r) n).reach = true := by
  unfold relaxState
  split
  · exact relaxEdge_keeps_reach inv h true (relaxEdge_keeps_reach inv h false hn)
  · exact hn

/-- Both edges of a reached state are relaxed (R122). -/
theorem relaxState_reaches (hr : (nodeAt col r).reach = true) (hlen : built.length = numStates) :
    (nodeAt (relaxState inv h col built r) (nextState r u)).reach = true := by
  rw [relaxState, if_pos hr]
  cases u with
  | false => exact relaxEdge_keeps_reach inv h true (relaxEdge_reaches inv h false hlen)
  | true => exact relaxEdge_reaches inv h true ((length_relaxEdge inv h false).trans hlen)

/-- Both successors of a reached state are reached in the next column. -/
theorem nextColumn_reaches (hr : (nodeAt col r).reach = true) :
    (nodeAt (nextColumn inv h col) (nextState r u)).reach = true := by
  refine foldl_of_mem (P := fun built => (nodeAt built (nextState r u)).reach = true)
    (Q := fun built => built.length = numStates) (toNat_mem_range r) List.length_replicate
    (fun built _ hlen => (length_relaxState inv h).trans hlen)
    (fun built _ hn => relaxState_keeps_reach inv h hn) fun built hlen => ?_
  rw [BitVec.ofNat_toNat, BitVec.setWidth_eq]
  exact relaxState_reaches inv h u hr hlen

/-- The path of zero input bits stays in state 0, so every later column reaches state 0. -/
theorem finalColumn_columnsFrom_reaches_zero (hs : List (Bool × Bool))
    (hcol : (nodeAt col 0).reach = true) :
    (nodeAt (finalColumn (columnsFrom inv col hs)) 0).reach = true := by
  induction hs generalizing col with
  | nil => exact hcol
  | cons h hs ih =>
    rw [columnsFrom, finalColumn_cons (columnsFrom_ne_nil _ _ _)]
    exact ih (nextColumn_reaches inv h (r := 0) false hcol)

theorem finalColumn_buildTrellis_reaches_zero (xs : List Symbol) :
    (nodeAt (finalColumn (buildTrellis inv xs)) 0).reach = true :=
  finalColumn_columnsFrom_reaches_zero inv (hardPairs xs) rfl

end reachability

/-- A comparison of the final selection never loses the state it has. -/
theorem betterFinal_keeps_isSome {col : List Node} {best : Option StateIx} (r : StateIx)
    (h : best.isSome = true) : (betterFinal col best r).isSome = true := by
  unfold betterFinal
  split
  · cases best with
    | none => rfl
    | some b => dsimp only; split <;> rfl
  · exact h

theorem betterFinal_isSome {col : List Node} {r : StateIx} (best : Option StateIx)
    (hr : (nodeAt col r).reach = true) : (betterFinal col best r).isSome = true := by
  unfold betterFinal
  rw [if_pos hr]
  cases best with
  | none => rfl
  | some b => dsimp only; split <;> rfl

/-- The final selection finds a state when there is a reachable one (R124). -/
theorem selectFinal_isSome {col : List Node} {r : StateIx} (hr : (nodeAt col r).reach = true) :
    (selectFinal col).isSome = true := by
  refine foldl_of_mem (P := fun best : Option StateIx => best.isSome = true) (Q := fun _ => True)
    (toNat_mem_range r) trivial (fun _ _ _ => trivial) (fun _ _ => betterFinal_keeps_isSome _) fun best _ => ?_
  rw [BitVec.ofNat_toNat, BitVec.setWidth_eq]
  exact betterFinal_isSome best hr

/-- The final selection of VIT_DEC always finds a state (R129). -/
theorem selectFinal_buildTrellis_ne_none (inv : Bool) (xs : List Symbol) :
    selectFinal (finalColumn (buildTrellis inv xs)) ≠ none :=
  Option.isSome_iff_ne_none.1 (selectFinal_isSome (finalColumn_buildTrellis_reaches_zero inv xs))

/-! ## The codes commands end in (R135) -/

theorem hamCorrect_code (v : CondaVariant) (f : Frame) :
    (hamCorrect v f).code = .corrected ∨ (hamCorrect v f).code = .uncorrectable := by
  unfold hamCorrect
  dsimp only
  split_ifs
  · exact .inr rfl
  · exact .inl rfl
  · exact .inr rfl

theorem hamDecide_code (v : CondaVariant) (f : Frame) :
    (hamDecide v f).code = .valid ∨ (hamDecide v f).code = .corrected ∨
      (hamDecide v f).code = .uncorrectable := by
  unfold hamDecide
  dsimp only
  split_ifs
  · exact .inl rfl
  · exact .inr (.inr rfl)
  · exact .inr (hamCorrect_code v f)
  · exact .inr (.inr rfl)

/-- VIT_DEC ends in NO_VALID_PATH under STRICT only, since the selection finds a state. -/
theorem finishDecode_ends (inv strict : Bool) (len : Len) (xs : List Symbol) (s : State) :
    (finishDecode strict (buildTrellis inv xs) s).busy = false ∧
      (finishDecode strict (buildTrellis inv xs) s).result ∈ Claims.ownCodes (.vitDec inv strict len) := by
  obtain ⟨hnone, -⟩ | ⟨b, -, ⟨rfl, -, he⟩ | ⟨-, he⟩⟩ :=
    finishDecode_cases strict (buildTrellis inv xs) s
  · exact absurd hnone (selectFinal_buildTrellis_ne_none inv xs)
  · rw [he]; exact ⟨rfl, .tail _ (.head _)⟩
  · rw [he]; cases strict <;> exact ⟨rfl, .head _⟩

/-- A command of the right length that completes ends in a code of its own. -/
theorem exec_ends_in_ownCode {i : Instr} {s t : State} (hl : lengthOk s.cfg.nmax i = true)
    (he : exec i s = .next t) : t.busy = false ∧ t.result ∈ Claims.ownCodes i := by
  have hnot : ¬ lengthOk s.cfg.nmax i = false := by simp [hl]
  cases i with
  | hamEnc len =>
    obtain ⟨-, rfl⟩ := (execHamEnc_next he).resolve_left fun h => hnot h.1
    exact ⟨rfl, .head _⟩
  | hamDec len =>
    obtain ⟨-, rfl⟩ := (execHamDec_next he).resolve_left fun h => hnot h.1
    exact ⟨rfl, by simpa [Claims.ownCodes] using hamDecide_code s.cfg.conda s.frame⟩
  | convEnc inv len =>
    obtain ⟨-, us, -, rfl⟩ := (execConvEnc_next he).resolve_left fun h => hnot h.1
    exact ⟨rfl, .head _⟩
  | vitDec inv strict len =>
    obtain ⟨-, xs, -, rfl⟩ := (execVitDec_next he).resolve_left fun h => hnot h.1
    exact finishDecode_ends inv strict len xs s

/-! ## The host assembly (R78, R80) -/

section hostAssembly

variable {h : Hosted} {x l : Nat}

theorem hostTurn_label (hst : h.prog[h.here]? = some (.label l)) :
    hostTurn h = .next { h with here := h.here + 1 } := by rw [hostTurn, hst]

theorem hostTurn_bnz {mask : Word} (hst : h.prog[h.here]? = some (.bnz x mask l)) :
    hostTurn h = .next { h with here := if h.var x &&& mask ≠ 0 then h.labelAt l else h.here + 1 } := by
  rw [hostTurn, hst]

theorem hostTurn_lw {reg : RegName} {d : State} (hst : h.prog[h.here]? = some (.lw x reg))
    (hread : deviceTurn (.read (h.dev.cfg.base + reg.offset) 4) h.dev = .next d) :
    hostTurn h = .next
      { h with
        here := h.here + 1
        dev := d
        vars := (x, d.readData) :: h.vars.filter fun p => p.1 != x } := by
  rw [hostTurn, hst]
  dsimp only
  rw [hread, afterTurn]

/-- The variable that was set last holds the value it was set to. -/
theorem Hosted.var_of_vars_eq_cons {v : Word} {vars : List (Nat × Word)} (hv : h.vars = (x, v) :: vars) :
    h.var x = v := by
  simp [Hosted.var, hv]

/-- A read of STATUS leaves the block as it was, busy or idle, and the turns that wait stay waiting. -/
theorem deviceTurn_read_status {s : State} (hc : s.cfg.wf) :
    deviceTurn (.read (s.cfg.base + RegName.status.offset) 4) s =
      .next { s with readData := statusWord s } :=
  step_read_ok (off := 0x004) hc rfl (by decide) rfl (Bool.and_false _) rfl

end hostAssembly

/-- The mask of POLL picks BUSY out of STATUS (R24, R80). -/
theorem statusWord_and_pollMask (s : State) : statusWord s &&& 0x10 ≠ 0 ↔ s.busy = true := by
  have hmask : (0x10 : Word) = BitVec.twoPow 32 4 := rfl
  rw [hmask, BitVec.and_twoPow, busy_statusWord]
  cases s.busy <;> decide

/-! ## The statements -/

/-- Settles O4: the command's word has the fields of the word it was decoded from, and RSV = 0. -/
theorem encodeOfDecode : Obligations.EncodeOfDecode :=
  fun _ _ h => ⟨encode_of_decode h, len_of_decode h⟩

/-- Settles O5: what the rows of R58 leave out is what R60 lists. With RSV = 0 that is a comparison of the
flags and of OP as a number. -/
theorem illegalWordsAreThoseOfTheRule : Obligations.IllegalWordsAreThoseOfTheRule := by
  intro w
  rw [exists_decode_eq_error_iff, exists_decode_eq_ok_iff]
  simp only [← BitVec.toNat_inj (x := opField w)]
  change _ ↔ (opField w).toNat = 0 ∨ 5 ≤ (opField w).toNat ∨ rsvField w ≠ 0#10 ∨
    (invField w = true ∧ ((opField w).toNat = 1 ∨ (opField w).toNat = 2)) ∨
    (strictField w = true ∧ ((opField w).toNat = 1 ∨ (opField w).toNat = 2 ∨ (opField w).toNat = 3))
  by_cases hrsv : rsvField w = 0#10
  · have hop : (1 : BitVec 4).toNat = 1 ∧ (2 : BitVec 4).toNat = 2 ∧ (3 : BitVec 4).toNat = 3 ∧
        (4 : BitVec 4).toNat = 4 := by decide
    grind
  · simp [hrsv]

/-- Settles O6: the write issues the command, and the latched fields are the word's bits. -/
theorem cmdWriteAccepts : Obligations.CmdWriteAccepts := by
  intro s w i rest hc hb hin hd hl
  rw [step_write_cmd hc hin, issue_accepts (s := { s with inputs := rest }) hb hd hl]
  rfl

/-- Settles O7: both rejections leave BUSY, which is 0, as it was. -/
theorem cmdWriteRejects : Obligations.CmdWriteRejects := by
  intro s w rest hc hb hin
  constructor
  · rintro ⟨e, hd⟩
    rw [step_write_cmd hc hin, issue_illegal (s := { s with inputs := rest }) hb hd,
      reject_idle (s := { s with inputs := rest }) hb]
  · intro i hd hl
    rw [step_write_cmd hc hin, issue_wrongLength (s := { s with inputs := rest }) hb hd hl,
      reject_idle (s := { s with inputs := rest }) hb]

/-- Settles O8: the word does not matter. -/
theorem cmdWriteWhileBusyOnlySetsOvr : Obligations.CmdWriteWhileBusyOnlySetsOvr := by
  intro s w rest hc hb hin
  rw [step_write_cmd hc hin, issue_busy (s := { s with inputs := rest }) hb]
  rfl

/-- Settles O12: the accepted word is in CUR when the engine takes its turn. -/
theorem acceptedCommandIsTheOneRun : Obligations.AcceptedCommandIsTheOneRun := by
  intro s w i rest hc hb hin hd hl
  refine ⟨State.accept w { s with inputs := .engine :: rest }, ?_, rfl, ?_⟩
  · rw [step_write_cmd hc hin, issue_accepts (s := { s with inputs := .engine :: rest }) hb hd hl]
  · exact step_engine_of_latched rfl rfl hd rfl

/-- Settles O21: the command in flight in a good state keeps its length contract. -/
theorem acceptedCommandEndsInItsOwnCode : Obligations.AcceptedCommandEndsInItsOwnCode := by
  intro s t i hgood hb hf he
  obtain ⟨j, hj, hl⟩ := fetch_of_inFlightOk hgood.inFlight hb
  obtain rfl : i = j := Except.ok.inj (hf.symm.trans hj)
  exact exec_ends_in_ownCode hl he

/-- Settles O60: the label, the read of STATUS, and the branch on its BUSY bit. -/
theorem pollLoopsWhileBusy : Obligations.PollLoopsWhileBusy := by
  intro h k t l hc hhere hlabel hst0 hst1 hst2
  subst hhere
  refine ⟨_, _, _, hostTurn_label hst0, hostTurn_lw hst1 (deviceTurn_read_status hc), hostTurn_bnz hst2,
    rfl, Hosted.var_of_vars_eq_cons rfl, rfl, ?_⟩
  dsimp only
  rw [Hosted.var_of_vars_eq_cons rfl]
  simp only [statusWord_and_pollMask]
  exact congrArg (fun n => if h.dev.busy = true then n else h.here + 3) hlabel

/-- Settles O1, word by word. -/
theorem writtenOutWordsDecode : Obligations.WrittenOutWordsDecode := by
  refine ⟨?_, ?_, ?_, ?_, ?_, ?_⟩ <;> decide

/-- Settles O2: LEN is placed beside the lower half of each word, which R79 writes out. -/
theorem commandPseudoInstructionsExpand : Obligations.CommandPseudoInstructionsExpand := by
  refine ⟨by decide, by decide, fun n => ⟨?_, ?_, ?_, ?_, ?_, ?_⟩⟩ <;>
    exact congrArg (HostStmt.sw .cmd) (commandWord_eq_or ..)

/-- Settles O9: the check of LEN comes before any computation. -/
theorem wrongLengthIsRejectedByTheMeaning : Obligations.WrongLengthIsRejectedByTheMeaning :=
  fun _ _ hl => exec_wrongLength (Bool.eq_false_of_not_eq_true hl)

/-- Settles O11: the placed word is latched in CUR, and its byte lanes carry it unchanged. -/
theorem fetchedWordIsRunNext : Obligations.FetchedWordIsRunNext := by
  intro s nbits w i h
  have hd : decode (tableWord nbits w) = .ok i := by
    rw [decodeTableWord, decodeBytes_lanesOfWord] at h
    cases hw : decode (tableWord nbits w) with
    | error e => rw [hw] at h; cases h
    | ok j => rw [hw] at h; cases h; rfl
  exact step_engine_of_latched rfl rfl hd rfl

/-- Settles O13: with BUSY = 0 the engine's turn passes. -/
theorem idleEngineTurnPasses : Obligations.IdleEngineTurnPasses := by
  intro s hb
  refine ⟨fun hin => ?_, fun rest hin => ?_⟩
  · rw [step_of_noTurn hin, engineTurn_idle hb]
  · rw [step_of_engine hin]; exact engineTurn_idle hb

end Sys2Proof.Machine

/-! The statements about the HAM unit (R82 to R104). The checksums are linear in the frame, so an error
in an encoded frame has the syndrome of the error alone; R84 gives that of one flipped bit, and R95's
table turns it into HAM_DEC's outcome. -/

namespace Sys2Proof.Machine

open Claims

/-! ## Exclusive-or over a list (R13) -/

theorem xorOver_append {α : Type} (xs ys : List α) (g : α → Bool) :
    xorOver (xs ++ ys) g = Bool.xor (xorOver xs g) (xorOver ys g) := by
  induction xs with
  | nil => simp
  | cons x xs ih => simp [ih]

theorem xorOver_congr {α : Type} {xs : List α} {g h : α → Bool} (hgh : ∀ x ∈ xs, g x = h x) :
    xorOver xs g = xorOver xs h := by
  induction xs with
  | nil => rfl
  | cons x xs ih =>
    rw [xorOver_cons, xorOver_cons, hgh x List.mem_cons_self,
      ih fun y hy => hgh y (List.mem_cons_of_mem x hy)]

/-- Over a list without repeats, the exclusive-or of the test for one element is membership. -/
theorem xorOver_decide_eq {α : Type} [DecidableEq α] {xs : List α} (hxs : xs.Nodup) (a : α) :
    xorOver xs (fun x => decide (x = a)) = decide (a ∈ xs) := by
  induction xs with
  | nil => rfl
  | cons x xs ih =>
    obtain ⟨hx, hnodup⟩ := List.nodup_cons.1 hxs
    rw [xorOver_cons, ih hnodup]
    by_cases h : x = a
    · subst h; simp [hx]
    · simp [h, Ne.symm h]

/-! ## Flipped bits of a frame (R12, R92) -/

theorem frameBit_xor (f g : Frame) (i : Nat) :
    frameBit (f ^^^ g) i = Bool.xor (frameBit f i) (frameBit g i) :=
  BitVec.getLsbD_xor

theorem frameBit_twoPow {i : Nat} (hi : i < 85) (k : Nat) :
    frameBit (BitVec.twoPow 85 i) k = decide (k = i) := by
  rw [frameBit, BitVec.getLsbD_twoPow, decide_eq_true hi, Bool.true_and]
  exact decide_eq_decide.2 eq_comm

theorem frameBit_flipped (f : Frame) {i : Nat} (hi : i < 85) (k : Nat) :
    frameBit (flipped f i) k = Bool.xor (frameBit f k) (decide (k = i)) := by
  rw [flipped, frameBit_xor, frameBit_twoPow hi]

/-- The one flip of HAM_DEC is the exclusive-or with one bit (R92). -/
theorem flipFrameBit_eq_flipped (f : Frame) {i : Nat} (hi : i < 85) : flipFrameBit f i = flipped f i := by
  refine frame_ext fun k _ => ?_
  rw [flipFrameBit, frameBit_setFrameBit f _ k hi, frameBit_flipped f hi]
  by_cases h : k = i
  · subst h; simp
  · simp [h]

theorem flipped_flipped (f : Frame) (i : Nat) : flipped (flipped f i) i = f := by
  rw [flipped, flipped, BitVec.xor_assoc, BitVec.xor_self, BitVec.xor_zero]

theorem flipped_ne_self (f : Frame) {i : Nat} (hi : i < 85) : flipped f i ≠ f := by
  intro h
  have hbit := congrArg (frameBit · i) h
  simp [frameBit_flipped f hi] at hbit

/-! ## The checksums are linear in the frame (R85, R87) -/

theorem setParity_xor (j : Nat) (f g : Frame) :
    setParity j (f ^^^ g) = Bool.xor (setParity j f) (setParity j g) :=
  (xorOver_congr fun p _ => frameBit_xor f g (85 - p)).trans (xorOver_xor ..)

theorem checksum_xor (f g : Frame) (j : Nat) :
    checksum (f ^^^ g) j = Bool.xor (checksum f j) (checksum g j) := by
  simp only [checksum, frameBit_xor, setParity_xor, Bool.xor_assoc, Bool.xor_left_comm]

/-- C from its checksums (R87). -/
theorem checks_c_eq {f : Frame} {c : BitVec 7} (h : ∀ j, 1 ≤ j → j ≤ 7 → checksum f j = c.getLsbD (j - 1)) :
    (checks f).c = c := by
  refine BitVec.eq_of_getLsbD_eq fun k hk => ?_
  have hj := getLsbD_checks_c f (j := k + 1) (by omega) (by omega)
  rwa [h (k + 1) (by omega) (by omega)] at hj

theorem checks_c_xor (f g : Frame) : (checks (f ^^^ g)).c = (checks f).c ^^^ (checks g).c := by
  refine checks_c_eq fun j h1 h7 => ?_
  rw [checksum_xor, BitVec.getLsbD_xor, getLsbD_checks_c f h1 h7, getLsbD_checks_c g h1 h7]

theorem checks_sigma_xor (f g : Frame) :
    (checks (f ^^^ g)).sigma = Bool.xor (checks f).sigma (checks g).sigma :=
  (xorOver_congr fun i _ => frameBit_xor f g i).trans (xorOver_xor ..)

/-! ## The index sets (R83, R84) -/

/-- The index sets list data positions only, each once (R83). -/
theorem indexSet_lists_dataPositions {j : Nat} (h1 : 1 ≤ j) (h7 : j ≤ 7) :
    (indexSet j).Nodup ∧ ∀ p ∈ indexSet j, 9 ≤ p ∧ p ≤ 85 := by
  interval_cases j <;> decide

/-- Row by row of R84's table: one number below 85 meets the condition on syn(P). -/
theorem filter_eq_synOf :
    ∀ p ∈ List.range' 9 77,
      (List.range 85).filter (fun c => decide (3 ≤ c ∧ c ≠ 2 ^ Nat.log2 c ∧ c + 8 - (Nat.log2 c + 1) = p)) =
        [synOf p] := by
  decide

/-- `syn(P)` is the one number that R84 asks for. -/
theorem eq_synOf_iff {p : Nat} (h9 : 9 ≤ p) (h85 : p ≤ 85) (c : Nat) :
    c = synOf p ↔ 3 ≤ c ∧ c ≤ 84 ∧ c ≠ 2 ^ Nat.log2 c ∧ c + 8 - (Nat.log2 c + 1) = p := by
  rw [← List.mem_singleton, ← filter_eq_synOf p (List.mem_range'_1.2 (by omega)), List.mem_filter,
    List.mem_range, decide_eq_true_iff, Nat.lt_succ_iff]
  tauto

theorem synOf_spec {p : Nat} (h9 : 9 ≤ p) (h85 : p ≤ 85) :
    3 ≤ synOf p ∧ synOf p ≤ 84 ∧ synOf p ≠ 2 ^ Nat.log2 (synOf p) ∧
      synOf p + 8 - (Nat.log2 (synOf p) + 1) = p :=
  (eq_synOf_iff h9 h85 _).1 rfl

/-- Row by row of R84's table: the sets of R83 are the bits of syn(P). -/
theorem mem_indexSet_table :
    ∀ p ∈ List.range' 9 77, ∀ j ∈ List.range' 1 7, p ∈ indexSet j ↔ (synOf p).testBit (j - 1) = true := by
  decide

theorem mem_indexSet_iff {p j : Nat} (h9 : 9 ≤ p) (h85 : p ≤ 85) (h1 : 1 ≤ j) (h7 : j ≤ 7) :
    p ∈ indexSet j ↔ (synOf p).testBit (j - 1) = true :=
  mem_indexSet_table p (List.mem_range'_1.2 (by omega)) j (List.mem_range'_1.2 (by omega))

/-! ## Syndromes with two bits set (R13, R90) -/

/-- Two bits are set exactly in the non-powers from 3 on (R84). -/
theorem two_le_popcount_iff :
    ∀ c : BitVec 7, 2 ≤ popcount c ↔ 3 ≤ c.toNat ∧ c.toNat ≠ 2 ^ Nat.log2 c.toNat := by
  decide

theorem popcount_le (c : BitVec 7) : popcount c ≤ 7 := List.length_filter_le _ (List.range 7)

theorem popcount_eq_zero_iff : ∀ c : BitVec 7, popcount c = 0 ↔ c = 0 := by decide

theorem ne_zero_of_popcount {c : BitVec 7} (h : 2 ≤ popcount c) : c ≠ 0 :=
  fun h0 => absurd ((popcount_eq_zero_iff c).2 h0) (by omega)

theorem eq_of_popcount_eq_six : ∀ c : BitVec 7, popcount c = 6 → c.toNat ≤ 84 → c = 63 := by decide

theorem eq_of_popcount_eq_seven : ∀ c : BitVec 7, popcount c = 7 → c = 127 := by decide

theorem popcount_twoPow : ∀ k < 7, popcount (BitVec.twoPow 7 k) = 1 := by decide

/-- The correction position by R84's formula. -/
theorem correctionPos_eq {c : BitVec 7} (hc : c ≠ 0) :
    correctionPos c = c.toNat + 8 - (Nat.log2 c.toNat + 1) := by rw [correctionPos, msb_eq_log2 hc]

/-- Correction positions start at the first data position, and those up to 85 are those of the syndromes up
to 84 (R90, R95). -/
theorem correctionPos_bounds :
    ∀ c : BitVec 7, 2 ≤ popcount c → 9 ≤ correctionPos c ∧ (correctionPos c ≤ 85 ↔ c.toNat ≤ 84) := by
  decide

/-- A correction position within the frame is the position whose syndrome asked for it (R97). -/
theorem toNat_eq_synOf_correctionPos {c : BitVec 7} (hw : 2 ≤ popcount c) (hc : c.toNat ≤ 84) :
    c.toNat = synOf (correctionPos c) := by
  obtain ⟨h9, h85⟩ := correctionPos_bounds c hw
  obtain ⟨h3, hpow⟩ := (two_le_popcount_iff c).1 hw
  exact (eq_synOf_iff h9 (h85.2 hc) _).2 ⟨h3, hc, hpow, (correctionPos_eq (ne_zero_of_popcount hw)).symm⟩

/-! ## The checksums of one flipped bit (R84, R97) -/

theorem checks_sigma_twoPow {i : Nat} (hi : i < 85) : (checks (BitVec.twoPow 85 i)).sigma = true := by
  rw [checks, xorOver_congr fun k _ => frameBit_twoPow hi k, xorOver_decide_eq List.nodup_range]
  exact decide_eq_true (List.mem_range.2 hi)

theorem setParity_twoPow {i j : Nat} (hi : i < 85) (h1 : 1 ≤ j) (h7 : j ≤ 7) :
    setParity j (BitVec.twoPow 85 i) = decide (85 - i ∈ indexSet j) := by
  obtain ⟨hnodup, hdata⟩ := indexSet_lists_dataPositions h1 h7
  rw [setParity, ← xorOver_decide_eq hnodup]
  refine xorOver_congr fun p hp => ?_
  have := hdata p hp
  rw [frameAt, frameBit_twoPow hi]
  exact decide_eq_decide.2 (by omega)

/-- A parity bit is in no index set (R83). -/
theorem setParity_twoPow_parity {i j : Nat} (h77 : 77 ≤ i) (hi : i < 85) (h1 : 1 ≤ j) (h7 : j ≤ 7) :
    setParity j (BitVec.twoPow 85 i) = false := by
  rw [setParity_twoPow hi h1 h7]
  refine decide_eq_false fun hmem => ?_
  have := (indexSet_lists_dataPositions h1 h7).2 _ hmem
  omega

/-- A flipped data bit makes the syndrome that of its position (R84). -/
theorem checks_c_twoPow_data {i : Nat} (hi : i < 77) :
    (checks (BitVec.twoPow 85 i)).c = BitVec.ofNat 7 (synOf (85 - i)) := by
  refine checks_c_eq fun j h1 h7 => ?_
  rw [checksum, frameBit_twoPow (by omega), decide_eq_false (by omega), Bool.false_xor,
    setParity_twoPow (by omega) h1 h7, BitVec.getLsbD_ofNat, decide_eq_true (show j - 1 < 7 by omega),
    Bool.true_and, Bool.eq_iff_iff, decide_eq_true_iff]
  exact mem_indexSet_iff (by omega) (by omega) h1 h7

theorem checks_c_twoPow_beta {j : Nat} (h1 : 1 ≤ j) (h7 : j ≤ 7) :
    (checks (BitVec.twoPow 85 (84 - j))).c = BitVec.twoPow 7 (j - 1) := by
  refine checks_c_eq fun k k1 k7 => ?_
  rw [checksum, frameBit_twoPow (by omega), setParity_twoPow_parity (by omega) (by omega) k1 k7,
    Bool.xor_false, BitVec.getLsbD_twoPow, decide_eq_true (show j - 1 < 7 by omega), Bool.true_and]
  exact decide_eq_decide.2 (by omega)

theorem checks_c_twoPow_p0 : (checks (BitVec.twoPow 85 84)).c = 0 := by
  refine checks_c_eq fun j h1 h7 => ?_
  rw [checksum, frameBit_twoPow (by omega), setParity_twoPow_parity (by omega) (by omega) h1 h7,
    decide_eq_false (by omega)]
  simp

theorem toNat_dataSyndrome {i : Nat} (hi : i < 77) :
    (checks (BitVec.twoPow 85 i)).c.toNat = synOf (85 - i) := by
  have := synOf_spec (p := 85 - i) (by omega) (by omega)
  rw [checks_c_twoPow_data hi, BitVec.toNat_ofNat, Nat.mod_eq_of_lt (by omega)]

/-- The syndrome of a flipped data bit leads Condition B back to that bit (R84, R90). -/
theorem dataSyndrome_spec {i : Nat} (hi : i < 77) :
    2 ≤ popcount (checks (BitVec.twoPow 85 i)).c ∧ (checks (BitVec.twoPow 85 i)).c.toNat ≤ 84 ∧
      correctionPos (checks (BitVec.twoPow 85 i)).c = 85 - i := by
  obtain ⟨h3, h84, hpow, hpos⟩ := synOf_spec (p := 85 - i) (by omega) (by omega)
  rw [← toNat_dataSyndrome hi] at h3 h84 hpow hpos
  have hw := (two_le_popcount_iff _).2 ⟨h3, hpow⟩
  exact ⟨hw, h84, (correctionPos_eq (ne_zero_of_popcount hw)).trans hpos⟩

/-- The offset K of a flipped data bit (R84, R90). -/
theorem msb_dataSyndrome {i : Nat} (hi : i < 77) :
    msb (checks (BitVec.twoPow 85 i)).c = Nat.log2 (synOf (85 - i)) + 1 := by
  have h0 : (checks (BitVec.twoPow 85 i)).c ≠ 0 := ne_zero_of_popcount (dataSyndrome_spec hi).1
  rw [msb_eq_log2 h0, toNat_dataSyndrome hi]

theorem popcount_dataSyndrome_ne_seven {i : Nat} (hi : i < 77) :
    popcount (checks (BitVec.twoPow 85 i)).c ≠ 7 := by
  intro h
  have h84 := (dataSyndrome_spec hi).2.1
  rw [eq_of_popcount_eq_seven _ h] at h84
  exact absurd h84 (by decide)

/-- The one data bit whose syndrome has weight 6, 0111111, is the one at position 65 (R88, R99). -/
theorem popcount_dataSyndrome_eq_six_iff {i : Nat} (hi : i < 77) :
    popcount (checks (BitVec.twoPow 85 i)).c = 6 ↔ i = 20 := by
  obtain ⟨-, h84, hpos⟩ := dataSyndrome_spec hi
  refine ⟨fun h => ?_, fun h => ?_⟩
  · rw [eq_of_popcount_eq_six _ h h84, show correctionPos 63 = 65 from rfl] at hpos
    omega
  · have hsyn : 63 = synOf 65 := (eq_synOf_iff (by decide) (by decide) 63).2 (by decide)
    rw [h, checks_c_twoPow_data (by decide), ← hsyn]
    rfl

/-- Flipping the bit that a syndrome corrects makes the same syndrome (R97). -/
theorem checks_c_twoPow_correctionPos {c : BitVec 7} (hw : 2 ≤ popcount c) (hc : c.toNat ≤ 84) :
    (checks (BitVec.twoPow 85 (85 - correctionPos c))).c = c := by
  obtain ⟨h9, h85⟩ := correctionPos_bounds c hw
  have hpos := h85.2 hc
  rw [BitVec.toNat_eq, toNat_dataSyndrome (by omega), toNat_eq_synOf_correctionPos hw hc]
  congr 1
  omega

/-- The stored index of the single flipped bit that makes a syndrome. -/
def errorIndex (c : BitVec 7) : Nat :=
  if c = 0 then 84 else if 2 ≤ popcount c then 85 - correctionPos c else 83 - Nat.log2 c.toNat

theorem errorIndex_twoPow : ∀ k < 7, errorIndex (BitVec.twoPow 7 k) = 83 - k := by decide

/-- Single errors have different syndromes (R101). -/
theorem errorIndex_checks_c {i : Nat} (hi : i < 85) : errorIndex (checks (BitVec.twoPow 85 i)).c = i := by
  rcases lt_or_ge i 77 with hdata | hparity
  · obtain ⟨hw, -, hpos⟩ := dataSyndrome_spec hdata
    rw [errorIndex, if_neg (ne_zero_of_popcount hw), if_pos hw, hpos]
    omega
  · rcases Nat.lt_or_ge i 84 with hbeta | hp0
    · have hc := checks_c_twoPow_beta (j := 84 - i) (by omega) (by omega)
      rw [show 84 - (84 - i) = i by omega] at hc
      rw [hc, errorIndex_twoPow _ (by omega)]
      omega
    · obtain rfl : i = 84 := by omega
      rw [checks_c_twoPow_p0]
      rfl

/-! ## Encoded frames (R82, R86) -/

/-- P0 of HAM_ENC (R86). -/
def parityOfFrame (f : Frame) : Bool :=
  Bool.xor (xorOver (List.range 77) (frameBit f)) (xorOver (List.range' 1 7) fun j => setParity j f)

theorem frameBit_encodeFrame (f : Frame) {i : Nat} (hi : i < 85) :
    frameBit (encodeFrame f) i =
      if i < 77 then frameBit f i else if i < 84 then setParity (84 - i) f else parityOfFrame f := by
  simp only [encodeFrame, List.foldl_cons, List.foldl_nil]
  rcases lt_or_ge i 77 with hdata | hparity
  · have hne (k : Nat) (hk : 77 ≤ k) : i ≠ k := by omega
    simp [frameBit_setFrameBit, hdata, hne]
  · interval_cases i <;> simp [frameBit_setFrameBit, parityOfFrame]

/-- The parity bits take no part in the set parities (R83, R85). -/
theorem setParity_encodeFrame (f : Frame) {j : Nat} (h1 : 1 ≤ j) (h7 : j ≤ 7) :
    setParity j (encodeFrame f) = setParity j f := by
  refine xorOver_congr fun p hp => ?_
  have := (indexSet_lists_dataPositions h1 h7).2 p hp
  rw [frameAt, frameAt, frameBit_encodeFrame f (by omega), if_pos (by omega)]

theorem checks_c_encodeFrame (f : Frame) : (checks (encodeFrame f)).c = 0 := by
  refine checks_c_eq fun j h1 h7 => ?_
  rw [checksum, setParity_encodeFrame f h1 h7, frameBit_encodeFrame f (by omega), if_neg (by omega),
    if_pos (by omega), show 84 - (84 - j) = j by omega]
  simp

theorem checks_sigma_encodeFrame (f : Frame) : (checks (encodeFrame f)).sigma = false := by
  have hsplit : List.range 85 = List.range 77 ++ (List.range' 77 7 ++ [84]) := rfl
  have hdata : xorOver (List.range 77) (frameBit (encodeFrame f)) = xorOver (List.range 77) (frameBit f) :=
    xorOver_congr fun i hi => by
      have := List.mem_range.1 hi
      rw [frameBit_encodeFrame f (by omega), if_pos this]
  have hbetas : xorOver (List.range' 77 7) (frameBit (encodeFrame f)) =
      xorOver (List.range' 1 7) fun j => setParity j f := by
    simp [frameBit_encodeFrame, List.range', Bool.xor_comm]
  have hp0 : frameBit (encodeFrame f) 84 = parityOfFrame f := frameBit_encodeFrame f (by omega)
  rw [checks, hsplit, xorOver_append, xorOver_append, hdata, hbetas, xorOver_cons, xorOver_nil, hp0,
    Bool.xor_false, ← Bool.xor_assoc, parityOfFrame, Bool.xor_self]

/-- HAM_ENC leaves a frame whose checksums are all 0 (R98). -/
theorem checks_encodeFrame (f : Frame) : checks (encodeFrame f) = { c := 0, sigma := false } := by
  rw [← checks_c_encodeFrame f, ← checks_sigma_encodeFrame f]

/-- The checksums of a frame with one flipped bit (R84). -/
theorem checks_flipped (f : Frame) {i : Nat} (hi : i < 85) :
    checks (flipped f i) =
      { c := (checks f).c ^^^ (checks (BitVec.twoPow 85 i)).c, sigma := !(checks f).sigma } := by
  rw [← checks_c_xor, ← Bool.xor_true, ← checks_sigma_twoPow hi, ← checks_sigma_xor]
  rfl

/-- The checksums of an encoded frame with one error are those of the error (R99, R100). -/
theorem checks_flipped_encodeFrame (d : Frame) {i : Nat} (hi : i < 85) :
    checks (flipped (encodeFrame d) i) = { c := (checks (BitVec.twoPow 85 i)).c, sigma := true } := by
  rw [checks_flipped _ hi, checks_encodeFrame]
  exact congrArg (Checksums.mk · true) BitVec.zero_xor

/-- A double error has c_sigma = 0 and C ≠ 0 (R101). -/
theorem checks_double_error (d : Frame) {i j : Nat} (hi : i < 85) (hj : j < 85) (hij : i ≠ j) :
    (checks (flipped (flipped (encodeFrame d) i) j)).sigma = false ∧
      (checks (flipped (flipped (encodeFrame d) i) j)).c ≠ 0 := by
  rw [checks_flipped _ hj, checks_flipped_encodeFrame d hi]
  refine ⟨rfl, fun h => hij ?_⟩
  rw [← errorIndex_checks_c hi, ← errorIndex_checks_c hj, BitVec.xor_eq_zero_iff.1 h]

/-! ## The rows of R95 -/

/-- The Condition-B branch is taken: c_sigma = 1 and w ≥ 2, and neither A (w = 6 under SIX) nor C (w = 7)
holds first (R91, R94). -/
abbrev TriesCorrection (v : CondaVariant) (k : Checksums) : Prop :=
  k.sigma = true ∧ 2 ≤ popcount k.c ∧ popcount k.c ≤ (if v = .six then 5 else 6)

theorem condA_iff {v : CondaVariant} {k : Checksums} :
    condA v k = true ↔
      (k.sigma = false ∧ popcount k.c = 0) ∨ (k.sigma = true ∧ popcount k.c = condaWeight v) := by
  rw [popcount_eq_zero_iff]
  cases hs : k.sigma <;> simp [condA, hs]

theorem condB_iff {k : Checksums} : condB k = true ↔ k.sigma = true ∧ 2 ≤ popcount k.c := by
  simp [condB]

theorem condC_iff {k : Checksums} :
    condC k = true ↔ (k.sigma = true ∧ popcount k.c = 7) ∨ (k.sigma = false ∧ 2 ≤ popcount k.c) := by
  simp [condC]

theorem triesCorrection_iff {v : CondaVariant} {k : Checksums} :
    TriesCorrection v k ↔ condB k = true ∧ ¬ condA v k = true ∧ ¬ condC k = true := by
  have hw := popcount_le k.c
  rw [condA_iff, condB_iff, condC_iff, TriesCorrection]
  cases k.sigma with
  | false => simp
  | true => cases v <;> simp [condaWeight] <;> omega

section rows

variable {v : CondaVariant} {f : Frame}

/-- The order A, C, B in which HAM_DEC decides, by the branch it takes (R91). -/
theorem hamDecide_of_condA (h : condA v (checks f) = true) : hamDecide v f = hamUntouched f .valid := by
  simp [hamDecide, h]

theorem hamDecide_of_tries (h : TriesCorrection v (checks f)) : hamDecide v f = hamCorrect v f := by
  obtain ⟨hB, hA, hC⟩ := triesCorrection_iff.1 h
  simp [hamDecide, hA, hB, hC]

theorem hamDecide_of_gives_up (hA : ¬ condA v (checks f) = true) (hB : ¬ TriesCorrection v (checks f)) :
    hamDecide v f = hamUntouched f .uncorrectable := by
  have hBC : ¬ condC (checks f) = true → ¬ condB (checks f) = true :=
    fun hC hB' => hB (triesCorrection_iff.2 ⟨hB', hA, hC⟩)
  by_cases hC : condC (checks f) = true
  · simp [hamDecide, hA, hC]
  · simp [hamDecide, hA, hC, hBC hC]

/-- Flipping the bit at the correction position undoes the syndrome, so the re-check passes (R97). -/
theorem checks_flipped_correctionPos (hB : condB (checks f) = true) (hc : (checks f).c.toNat ≤ 84) :
    checks (flipped f (85 - correctionPos (checks f).c)) = { c := 0, sigma := false } := by
  obtain ⟨hsigma, hw⟩ := condB_iff.1 hB
  have h9 := (correctionPos_bounds _ hw).1
  rw [checks_flipped f (by omega), checks_c_twoPow_correctionPos hw hc, BitVec.xor_self, hsigma]
  rfl

theorem condA_clean (v : CondaVariant) : condA v { c := 0, sigma := false } = true := rfl

theorem hamCorrect_of_le (hB : condB (checks f) = true) (hc : (checks f).c.toNat ≤ 84) :
    hamCorrect v f =
      { frame := flipped f (85 - correctionPos (checks f).c), chk := { c := 0, sigma := false },
        k := msb (checks f).c, pos := correctionPos (checks f).c, code := .corrected } := by
  obtain ⟨h9, h85⟩ := correctionPos_bounds _ (condB_iff.1 hB).2
  rw [hamCorrect, if_neg (by have := h85.2 hc; omega), flipFrameBit_eq_flipped f (by omega)]
  simp only [checks_flipped_correctionPos hB hc, condA_clean, if_true]

theorem hamCorrect_of_gt (hB : condB (checks f) = true) (hc : 85 ≤ (checks f).c.toNat) :
    hamCorrect v f = { hamUntouched f .uncorrectable with
      k := msb (checks f).c, pos := correctionPos (checks f).c } := by
  obtain ⟨-, h85⟩ := correctionPos_bounds _ (condB_iff.1 hB).2
  exact if_pos (by by_contra h; have := h85.1 (by omega); omega)

/-- Without a correction the frame is left untouched, and nothing is reported in K and POS (R91, R94). -/
theorem hamDecide_of_not_tries (h : ¬ TriesCorrection v (checks f)) :
    ∃ code, code ≠ .corrected ∧ hamDecide v f = hamUntouched f code := by
  by_cases hA : condA v (checks f) = true
  · exact ⟨.valid, by decide, hamDecide_of_condA hA⟩
  · exact ⟨.uncorrectable, by decide, hamDecide_of_gives_up hA h⟩

/-- HAM_DEC either leaves the frame, or reports CORRECTED and flips the bit at the correction position. -/
theorem hamDecide_keeps_or_corrects (v : CondaVariant) (f : Frame) :
    ((hamDecide v f).frame = f ∧ (hamDecide v f).code ≠ .corrected) ∨
      (condB (checks f) = true ∧ (checks f).c.toNat ≤ 84 ∧ (hamDecide v f).code = .corrected ∧
        (hamDecide v f).frame = flipped f (85 - correctionPos (checks f).c)) := by
  by_cases h : TriesCorrection v (checks f)
  · have hB := (triesCorrection_iff.1 h).1
    rw [hamDecide_of_tries h]
    rcases Nat.lt_or_ge 84 (checks f).c.toNat with hc | hc
    · rw [hamCorrect_of_gt hB hc]
      exact .inl ⟨rfl, ResultCode.noConfusion⟩
    · rw [hamCorrect_of_le hB hc]
      exact .inr ⟨hB, hc, rfl, rfl⟩
  · obtain ⟨code, hcode, hdec⟩ := hamDecide_of_not_tries h
    rw [hdec]
    exact .inl ⟨rfl, hcode⟩

/-- CHK holds the checksums of the frame that HAM_DEC leaves (R34, log 15). -/
theorem hamDecide_chk (v : CondaVariant) (f : Frame) :
    (hamDecide v f).chk = checks (hamDecide v f).frame := by
  by_cases h : TriesCorrection v (checks f)
  · rw [hamDecide_of_tries h, hamCorrect]
    dsimp only
    split <;> rfl
  · obtain ⟨code, -, hdec⟩ := hamDecide_of_not_tries h
    rw [hdec]
    rfl

/-- A single data error takes the Condition-B branch, except under SIX the one with weight 6 (R99). -/
theorem triesCorrection_data_error (d : Frame) {i : Nat} (hi : i < 77) (hv : v = .one ∨ i ≠ 20) :
    TriesCorrection v (checks (flipped (encodeFrame d) i)) := by
  have h6 := popcount_dataSyndrome_eq_six_iff hi
  have h7 := popcount_dataSyndrome_ne_seven hi
  have hle := popcount_le (checks (BitVec.twoPow 85 i)).c
  rw [checks_flipped_encodeFrame d (by omega)]
  refine ⟨rfl, (dataSyndrome_spec hi).1, ?_⟩
  dsimp only
  cases v with
  | one => rw [if_neg (by decide)]; omega
  | six =>
    have hne := hv.resolve_left (by decide)
    rw [if_pos rfl]; omega

theorem hamDecide_data_error (d : Frame) {i : Nat} (hi : i < 77) (hv : v = .one ∨ i ≠ 20) :
    hamDecide v (flipped (encodeFrame d) i) =
      { frame := encodeFrame d, chk := { c := 0, sigma := false },
        k := msb (checks (BitVec.twoPow 85 i)).c, pos := 85 - i, code := .corrected } := by
  obtain ⟨-, h84, hpos⟩ := dataSyndrome_spec hi
  have htries := triesCorrection_data_error d hi hv
  have hc : (checks (flipped (encodeFrame d) i)).c = (checks (BitVec.twoPow 85 i)).c := by
    rw [checks_flipped_encodeFrame d (by omega)]
  rw [hamDecide_of_tries htries, hamCorrect_of_le (triesCorrection_iff.1 htries).1 (by rwa [hc]), hc, hpos,
    show 85 - (85 - i) = i by omega, flipped_flipped]

/-- A row of R95's table: the code and the frame that HAM_DEC leaves. -/
def HamOutcome (v : CondaVariant) (f : Frame) (code : ResultCode) (g : Frame) : Prop :=
  (hamDecide v f).code = code ∧ (hamDecide v f).frame = g

theorem outcome_clean (h : condA v (checks f) = true) : HamOutcome v f .valid f := by
  rw [HamOutcome, hamDecide_of_condA h]
  exact ⟨rfl, rfl⟩

theorem outcome_gives_up (hA : ¬ condA v (checks f) = true) (hB : ¬ TriesCorrection v (checks f)) :
    HamOutcome v f .uncorrectable f := by
  rw [HamOutcome, hamDecide_of_gives_up hA hB]
  exact ⟨rfl, rfl⟩

theorem outcome_corrected (h : TriesCorrection v (checks f)) (hc : (checks f).c.toNat ≤ 84) :
    HamOutcome v f .corrected (flipped f (85 - correctionPos (checks f).c)) := by
  rw [HamOutcome, hamDecide_of_tries h, hamCorrect_of_le (triesCorrection_iff.1 h).1 hc]
  exact ⟨rfl, rfl⟩

theorem outcome_beyond (h : TriesCorrection v (checks f)) (hc : 85 ≤ (checks f).c.toNat) :
    HamOutcome v f .uncorrectable f := by
  rw [HamOutcome, hamDecide_of_tries h, hamCorrect_of_gt (triesCorrection_iff.1 h).1 hc]
  exact ⟨rfl, rfl⟩

/-- With all seven checksums and c_sigma at 1 both orders give up, and only A, B, C computes a position,
127 + 8 − 7 (R104). -/
theorem hamDecide_of_weight_seven (hsigma : (checks f).sigma = true) (hw : popcount (checks f).c = 7) :
    hamDecide v f = hamUntouched f .uncorrectable ∧
      hamDecideABC v f = { hamUntouched f .uncorrectable with k := 7, pos := 128 } := by
  have hA : ¬ condA v (checks f) = true := by cases v <;> simp [condA_iff, hsigma, hw, condaWeight]
  have hB : condB (checks f) = true := condB_iff.2 ⟨hsigma, by omega⟩
  have hc := eq_of_popcount_eq_seven _ hw
  have hC : condC (checks f) = true := condC_iff.2 (.inl ⟨hsigma, hw⟩)
  refine ⟨hamDecide_of_gives_up hA fun h => (triesCorrection_iff.1 h).2.2 hC, ?_⟩
  rw [hamDecideABC, if_neg hA, if_pos hB, hamCorrect_of_gt hB (by rw [hc]; decide), hc]
  rfl

/-- Elsewhere no syndrome meets B and C together, so their order does not matter (R104). -/
theorem hamDecideABC_eq_hamDecide (h : ¬ ((checks f).sigma = true ∧ popcount (checks f).c = 7)) :
    hamDecideABC v f = hamDecide v f := by
  have hBC : condB (checks f) = true → ¬ condC (checks f) = true := by
    rw [condB_iff, condC_iff]
    rintro ⟨hsigma, -⟩ (hC | ⟨hsigma', -⟩)
    · exact h hC
    · exact absurd (hsigma.symm.trans hsigma') (by decide)
  rw [hamDecideABC, hamDecide]
  by_cases hB : condB (checks f) = true
  · simp [hB, hBC hB]
  · simp [hB]

end rows

/-! ## HAM_ENC and HAM_DEC as commands (R86, R91) -/

theorem exec_hamEnc (s : State) :
    exec (.hamEnc 77) s = .next { s with frame := encodeFrame s.frame, result := .ok, busy := false } := rfl

theorem exec_hamDec (s : State) :
    exec (.hamDec 85) s = .next
      { s with
        frame := (hamDecide s.cfg.conda s.frame).frame
        hamSyn := hamSynWord (checks s.frame) (hamDecide s.cfg.conda s.frame).k
          (hamDecide s.cfg.conda s.frame).pos
        chk := (hamDecide s.cfg.conda s.frame).chk
        result := (hamDecide s.cfg.conda s.frame).code
        busy := false } := rfl

section fields

variable (chk : Checksums) {k pos : Nat}

theorem synField_hamSynWord : synField (hamSynWord chk k pos) = chk.c.toNat := by
  rw [synField, syn_hamSynWord]

theorem csigField_hamSynWord : csigField (hamSynWord chk k pos) = chk.sigma := csig_hamSynWord chk k pos

theorem kField_hamSynWord (hk : k < 8) : kField (hamSynWord chk k pos) = k := by
  rw [kField, k_hamSynWord, BitVec.toNat_ofNat, Nat.mod_eq_of_lt hk]

theorem posField_hamSynWord (hpos : pos < 256) : posField (hamSynWord chk k pos) = pos := by
  rw [posField, pos_hamSynWord, BitVec.toNat_ofNat, Nat.mod_eq_of_lt hpos]

theorem hamSynWord_clean : hamSynWord { c := 0, sigma := false } 0 0 = 0 := by decide

end fields

/-! ## The statements -/

/-- Settles O35, by the table of R84. -/
theorem indexSetsHaveTheClosedForm : Obligations.IndexSetsHaveTheClosedForm :=
  fun p h9 h85 =>
    ⟨⟨synOf p, (eq_synOf_iff h9 h85 _).1 rfl, fun c hc => (eq_synOf_iff h9 h85 c).2 hc⟩,
      fun _ h1 h7 => mem_indexSet_iff h9 h85 h1 h7⟩

/-- Settles O37, by the bits of the encoded frame. -/
theorem hamEncWritesTheParityBits : Obligations.HamEncWritesTheParityBits := by
  refine fun s => ⟨encodeFrame s.frame, exec_hamEnc s, fun i hi => ?_, fun j h1 h7 => ?_,
    checks_sigma_encodeFrame s.frame⟩
  · exact (frameBit_encodeFrame s.frame (by omega)).trans (if_pos hi)
  · refine (frameBit_encodeFrame s.frame (i := 84 - j) (by omega)).trans ?_
    rw [if_neg (by omega), if_pos (by omega), show 84 - (84 - j) = j by omega]
    rfl

/-- Settles O42: an encoded frame meets Condition A. -/
theorem hamRoundTripIsValid : Obligations.HamRoundTripIsValid := by
  refine fun s => ⟨_, _, exec_hamEnc s, exec_hamDec _, ?_⟩
  have hchk := checks_encodeFrame s.frame
  have hdec : hamDecide s.cfg.conda (encodeFrame s.frame) = hamUntouched (encodeFrame s.frame) .valid :=
    hamDecide_of_condA (hchk ▸ condA_clean _)
  dsimp only
  rw [hdec, hchk]
  exact ⟨rfl, rfl, hamSynWord_clean, fun i hi => (frameBit_encodeFrame s.frame (by omega)).trans (if_pos hi)⟩

/-- Settles O45: c_sigma = 0 and C ≠ 0 lead to Condition C or to the fallback. -/
theorem doubleErrorIsUncorrectable : Obligations.DoubleErrorIsUncorrectable := by
  intro s d i j hi hj hij hf
  obtain ⟨hsigma, hc⟩ := checks_double_error d hi hj hij
  rw [← hf] at hsigma hc
  have hw := mt (popcount_eq_zero_iff _).1 hc
  have hdec : hamDecide s.cfg.conda s.frame = hamUntouched s.frame .uncorrectable :=
    hamDecide_of_gives_up (by simp [condA_iff, hsigma, hw])
      (by simp [TriesCorrection, hsigma])
  refine ⟨_, exec_hamDec s, by rw [hdec]; rfl, by rw [hdec]; rfl, ?_, ?_⟩
  · rw [csigField_hamSynWord, hsigma]
  · rw [synField_hamSynWord]
    exact fun h => hc (BitVec.eq_of_toNat_eq h)

/-- Settles O44: a flipped β_j has a syndrome of weight 1, and a flipped P0 the syndrome 0. -/
theorem singleParityErrorLeavesTheFrame : Obligations.SingleParityErrorLeavesTheFrame := by
  refine fun s d => ⟨fun j h1 h7 hf => ?_, fun hf => ?_⟩
  · have hchk := checks_flipped_encodeFrame d (i := 84 - j) (by omega)
    rw [← hf, checks_c_twoPow_beta h1 h7] at hchk
    have hw := popcount_twoPow (j - 1) (by omega)
    have hdec : hamDecide s.cfg.conda s.frame =
        hamUntouched s.frame (if s.cfg.conda = .one then .valid else .uncorrectable) := by
      cases hv : s.cfg.conda with
      | one => exact hamDecide_of_condA (by simp [condA_iff, hchk, hw, condaWeight])
      | six =>
        exact hamDecide_of_gives_up (by simp [condA_iff, hchk, hw, condaWeight])
          (by simp [TriesCorrection, hchk, hw])
    refine ⟨_, exec_hamDec s, by rw [hdec]; rfl, ?_, ?_, by rw [hdec]; rfl⟩
    · rw [synField_hamSynWord, hchk, BitVec.toNat_twoPow_of_lt (by omega)]
    · rw [csigField_hamSynWord, hchk]
  · have hchk := checks_flipped_encodeFrame d (i := 84) (by omega)
    rw [← hf, checks_c_twoPow_p0] at hchk
    have hw : popcount 0#7 = 0 := rfl
    have hdec : hamDecide s.cfg.conda s.frame = hamUntouched s.frame .uncorrectable :=
      hamDecide_of_gives_up (by cases s.cfg.conda <;> simp [condA_iff, hchk, hw, condaWeight])
        (by simp [TriesCorrection, hchk, hw])
    refine ⟨_, exec_hamDec s, by rw [hdec]; rfl, ?_, ?_, by rw [hdec]; rfl⟩
    · rw [synField_hamSynWord, hchk]; rfl
    · rw [csigField_hamSynWord, hchk]

/-- Settles O43: the syndrome is that of the flipped bit, whose weight is 6 only at index 20. -/
theorem singleDataErrorIsCorrected : Obligations.SingleDataErrorIsCorrected := by
  intro s d i hi hf
  refine ⟨_, exec_hamDec s, fun hv => ?_, fun hv h20 => ?_⟩
  · have hmsb := msb_le (checks (BitVec.twoPow 85 i)).c
    dsimp only
    rw [hf, hamDecide_data_error d hi hv, checks_flipped_encodeFrame d (by omega), synField_hamSynWord,
      csigField_hamSynWord, kField_hamSynWord _ (by dsimp only; omega),
      posField_hamSynWord _ (by dsimp only; omega)]
    exact ⟨rfl, rfl, toNat_dataSyndrome hi, rfl, msb_dataSyndrome hi, rfl⟩
  · refine outcome_clean (condA_iff.2 (.inr ?_))
    rw [hf, checks_flipped_encodeFrame d (by omega), hv]
    exact ⟨rfl, (popcount_dataSyndrome_eq_six_iff hi).2 h20⟩

/-- Settles O38: in each row w and the variant decide which branch is taken. -/
theorem hamDecFollowsTheOutcomeTable : Obligations.HamDecFollowsTheOutcomeTable := by
  intro s
  refine ⟨_, _, _, (exec_hamDec s).trans (by rw [hamDecide_chk]), fun hsigma => ?_, fun hsigma => ?_⟩
  · have hB : ¬ TriesCorrection s.cfg.conda (checks s.frame) := by simp [TriesCorrection, hsigma]
    refine ⟨fun hw => outcome_clean (condA_iff.2 (.inl ⟨hsigma, hw⟩)), fun hw => outcome_gives_up ?_ hB⟩
    simp [condA_iff, hsigma, Nat.ne_of_gt hw]
  · have hA : condA s.cfg.conda (checks s.frame) = true ↔
        popcount (checks s.frame).c = condaWeight s.cfg.conda := by simp [condA_iff, hsigma]
    have hB : TriesCorrection s.cfg.conda (checks s.frame) ↔ 2 ≤ popcount (checks s.frame).c ∧
        popcount (checks s.frame).c ≤ (if s.cfg.conda = .six then 5 else 6) := by
      simp [TriesCorrection, hsigma]
    have hfive (h2 : 2 ≤ popcount (checks s.frame).c) (h5 : popcount (checks s.frame).c ≤ 5) :
        TriesCorrection s.cfg.conda (checks s.frame) := hB.2 ⟨h2, by split <;> omega⟩
    have hsix (h6 : popcount (checks s.frame).c = 6) (hv : s.cfg.conda = .one) :
        TriesCorrection s.cfg.conda (checks s.frame) := hB.2 ⟨by omega, by simp [hv, h6]⟩
    refine ⟨fun hw => ?weight_zero, fun hw => ?weight_one, fun h2 h5 hc => outcome_corrected (hfive h2 h5) hc,
      fun h2 h5 hc => outcome_beyond (hfive h2 h5) hc, fun hw hv hc => ?weight_six_one,
      fun hw hv hc => outcome_beyond (hsix hw hv) hc, fun hw hv => ?weight_six_six, fun hw => ?weight_seven⟩
    case weight_zero =>
      refine outcome_gives_up (fun h => ?_) (fun h => ?_)
      · rw [hA, hw] at h; cases hv : s.cfg.conda <;> simp [hv, condaWeight] at h
      · have := (hB.1 h).1; omega
    case weight_one =>
      split
      next hv => exact (outcome_clean (hA.2 (by rw [hw, hv]; rfl))).symm
      next hv =>
        have hv6 : s.cfg.conda = .six := by
          cases h : s.cfg.conda with
          | one => exact absurd h hv
          | six => rfl
        refine (outcome_gives_up (fun h => ?_) (fun h => ?_)).symm
        · rw [hA, hw, hv6] at h; cases h
        · have := (hB.1 h).1; omega
    case weight_six_one =>
      have h63 := eq_of_popcount_eq_six _ hw hc
      have hrow := outcome_corrected (hsix hw hv) hc
      rw [h63] at hrow ⊢
      exact ⟨rfl, hrow⟩
    case weight_six_six => exact outcome_clean (hA.2 (by rw [hw, hv]; rfl))
    case weight_seven =>
      rw [(hamDecide_of_weight_seven hsigma hw).1]
      exact ⟨rfl, rfl⟩

/-- Settles O39: K and POS are written by the Condition-B branch only, and fit their fields. -/
theorem hamDecReportsTheFirstEvaluation : Obligations.HamDecReportsTheFirstEvaluation := by
  refine fun s => ⟨_, exec_hamDec s, synField_hamSynWord _, csigField_hamSynWord _,
    reserved_hamSynWord_low .., reserved_hamSynWord_high .., ?_⟩
  have hmsb := msb_le (checks s.frame).c
  have hc := (checks s.frame).c.isLt
  change if TriesCorrection s.cfg.conda (checks s.frame) then _ else _
  split
  next h =>
    obtain ⟨hk, hpos⟩ := hamCorrect_report s.cfg.conda s.frame
    rw [hamDecide_of_tries h, hk, hpos, kField_hamSynWord _ (by omega),
      posField_hamSynWord _ (by rw [correctionPos]; omega)]
    exact ⟨rfl, rfl⟩
  next h =>
    obtain ⟨code, -, hdec⟩ := hamDecide_of_not_tries h
    rw [hdec]
    exact ⟨kField_hamSynWord _ (Nat.zero_lt_succ _), posField_hamSynWord _ (Nat.zero_lt_succ _)⟩

/-- Settles O40: a correction position is that of a data bit. -/
theorem hamDecFlipsAtMostOneDataBit : Obligations.HamDecFlipsAtMostOneDataBit := by
  refine fun s => ⟨_, exec_hamDec s, ?_⟩
  obtain ⟨hkept, -⟩ | ⟨hB, -, -, hflip⟩ := hamDecide_keeps_or_corrects s.cfg.conda s.frame
  · exact .inl hkept
  · have := (correctionPos_bounds _ (condB_iff.1 hB).2).1
    exact .inr ⟨_, by omega, hflip⟩

/-- Settles O41: the flipped bit's syndrome is C, so the two cancel. -/
theorem hamDecRecheckAlwaysPasses : Obligations.HamDecRecheckAlwaysPasses := by
  refine fun s => ⟨fun hB hpos => ?_, _, exec_hamDec s, ?_⟩
  · obtain ⟨-, hw⟩ := condB_iff.1 hB
    obtain ⟨h9, h85⟩ := correctionPos_bounds _ hw
    obtain ⟨h3, hpow⟩ := (two_le_popcount_iff _).1 hw
    have hc := h85.1 hpos
    refine ⟨h3, hc, hpow, (toNat_eq_synOf_correctionPos hw hc).symm, fun j h1 h7 => ?_⟩
    rw [flipped, checksum_xor, ← getLsbD_checks_c (BitVec.twoPow ..) h1 h7,
      checks_c_twoPow_correctionPos hw hc]
    cases checksum s.frame j <;> simp
  · obtain ⟨hkept, hcode⟩ | ⟨hB, hc, hcode, hflip⟩ := hamDecide_keeps_or_corrects s.cfg.conda s.frame
    · simp [hkept, hcode]
    · have := (correctionPos_bounds _ (condB_iff.1 hB).2).1
      have hne := flipped_ne_self s.frame (i := 85 - correctionPos (checks s.frame).c) (by omega)
      dsimp only
      rw [hcode, hflip, checks_flipped_correctionPos hB hc]
      exact ⟨iff_of_true hne rfl, fun _ => ⟨rfl, condA_clean _⟩⟩

/-- Settles O46: the orders can differ only where B and C both hold. -/
theorem conditionOrderDoesNotMatter : Obligations.ConditionOrderDoesNotMatter := by
  intro v f
  by_cases h : (checks f).sigma = true ∧ popcount (checks f).c = 7
  · obtain ⟨hdec, habc⟩ := hamDecide_of_weight_seven (v := v) h.1 h.2
    simp [hdec, habc, h, hamUntouched]
  · rw [hamDecideABC_eq_hamDecide h]
    exact ⟨rfl, rfl, by simp [h], fun hsigma hw => absurd ⟨hsigma, hw⟩ h⟩

end Sys2Proof.Machine

/-! The statements about the convolutional code (R106 to R116) and the decoder's choice of a message
(R117 to R128). The register after a message holds its last six bits, so each output pair is a sum of
message bits; the node of a trellis column holds the least metric of the paths into its state, and the
traceback recovers a path of that metric. -/

namespace Sys2Proof.Machine

open Claims

/-! ## Operands held from index 0 (R21, R22, R59) -/

theorem len_pos_of_lengthOk_convEnc {nmax : Nat} {inv : Bool} {len : Len}
    (h : lengthOk nmax (.convEnc inv len) = true) : 0 < len.toNat := by
  simp only [lengthOk, Bool.and_eq_true, decide_eq_true_eq] at h
  exact h.1

theorem len_pos_of_lengthOk_vitDec {nmax : Nat} {inv strict : Bool} {len : Len}
    (h : lengthOk nmax (.vitDec inv strict len) = true) : 0 < len.toNat :=
  len_pos_of_lengthOk_convEnc (inv := inv) h

/-- A block that holds a list reads as that list. -/
theorem Memory.readBlock_of_holds {α : Type} {m : Memory α} {vs : List α} (h : HoldsFromZero m vs) :
    Memory.readBlock m 0 vs.length = .ok vs := by
  obtain ⟨ws, hws⟩ := Memory.readBlock_of_written (m := m) (a := 0) (n := vs.length) fun k hk => by
    rw [Nat.zero_add, h k hk, List.getElem?_eq_getElem hk]; rfl
  obtain ⟨hlen, hread⟩ := Memory.readBlock_ok hws
  rw [hws]
  refine congrArg Except.ok (List.ext_getElem? fun k => ?_)
  rcases Nat.lt_or_ge k vs.length with hk | hk
  · rw [← hread k hk, Nat.zero_add, h k hk]
  · rw [List.getElem?_eq_none (by omega), List.getElem?_eq_none hk]

/-- A block that is written holds the list of its elements. -/
theorem Memory.holds_of_written {α : Type} {m : Memory α} {n : Nat}
    (h : ∀ k < n, (Memory.read m k).isSome) : ∃ vs : List α, vs.length = n ∧ HoldsFromZero m vs := by
  obtain ⟨vs, hvs⟩ := Memory.readBlock_of_written (m := m) (a := 0) (n := n) fun k hk => by
    rw [Nat.zero_add]; exact h k hk
  obtain ⟨hlen, hread⟩ := Memory.readBlock_ok hvs
  refine ⟨vs, hlen, fun k hk => ?_⟩
  rw [← hread k (hlen ▸ hk), Nat.zero_add]

/-- A block holds the list just written from index 0 on. -/
theorem Memory.holds_writeBlock {α : Type} (m : Memory α) (vs : List α) :
    HoldsFromZero (Memory.writeBlock m 0 vs) vs := by
  intro k hk
  rw [Memory.read_writeBlock, if_pos (by omega), Nat.sub_zero]

/-! ## The shift register (R106 to R109) -/

/-- A bit of the next state: the input at the top, the old bits moved down by one. -/
theorem getLsbD_nextState (r : StateIx) (u : Bool) {i : Nat} (hi : i < 6) :
    (nextState r u).getLsbD i = if i = 5 then u else r.getLsbD (i + 1) := by
  rw [nextState, BitVec.getLsbD_or, getLsbD_place, BitVec.getLsbD_ushiftRight, Nat.add_comm 1 i,
    BitVec.getLsbD_ofBool]
  split
  next h => subst h; simp
  next h => simp [show ¬ 5 ≤ i by omega]

@[simp] theorem regBit_nextState_zero (r : StateIx) (u : Bool) : regBit (nextState r u) 0 = u :=
  getLsbD_nextState r u (i := 5) (by omega)

theorem regBit_nextState_succ (r : StateIx) (u : Bool) {k : Nat} (hk : k < 5) :
    regBit (nextState r u) (k + 1) = regBit r k := by
  rw [regBit, getLsbD_nextState r u (by omega), if_neg (by omega), regBit,
    show 5 - (k + 1) + 1 = 5 - k by omega]

/-- The state index as the number of its register bits (R108). -/
theorem toNat_eq_sum_regBit (r : StateIx) :
    r.toNat = ((List.range 6).map fun k => (regBit r k).toNat * 2 ^ (5 - k)).sum := by
  revert r; decide

/-- The shift register after a message, from the zero register (R111, R115). -/
def regAfter (us : List Bool) : StateIx := us.foldl nextState 0

@[simp] theorem regAfter_snoc (us : List Bool) (u : Bool) :
    regAfter (us ++ [u]) = nextState (regAfter us) u := by
  rw [regAfter, List.foldl_append]; rfl

/-- Later message bits do not change what an earlier step taps. -/
theorem tap_append {us : List Bool} {t : Nat} (d : Nat) (vs : List Bool) (ht : t < us.length) :
    tap (us ++ vs) t d = tap us t d := by
  simp only [tap]
  rw [List.getD_append _ _ _ _ (by omega)]

/-- The step that takes the last bit of a message taps that bit at distance 0. -/
theorem tap_snoc_zero (us : List Bool) (u : Bool) : tap (us ++ [u]) us.length 0 = u := by
  simp [tap]

/-- The step that takes one more bit taps the bits before it as the register holds them. -/
theorem tap_snoc_succ (us : List Bool) (u : Bool) (k : Nat) :
    tap (us ++ [u]) us.length (k + 1) = tap us us.length (k + 1) := by
  simp only [tap]
  split
  next h => rw [List.getD_append _ _ _ _ (by omega)]
  next => rfl

/-- Register bit r_k after a message is the bit `k + 1` steps before the next one (R106). -/
theorem regBit_regAfter (us : List Bool) {k : Nat} (hk : k < 6) :
    regBit (regAfter us) k = tap us us.length (k + 1) := by
  induction us using List.reverseRecOn generalizing k with
  | nil => simp [regAfter, regBit, tap]
  | append_singleton us u ih =>
    have hshift (d : Nat) : tap (us ++ [u]) (us ++ [u]).length (d + 1) = tap (us ++ [u]) us.length d := by
      simp [tap]
    rw [regAfter_snoc, hshift]
    cases k with
    | zero => rw [regBit_nextState_zero, tap_snoc_zero]
    | succ k => rw [regBit_nextState_succ _ _ (by omega), ih (by omega), tap_snoc_succ]

/-- The register after a message that is not empty holds its last six bits, the last one in r0 (R115). -/
theorem regBit_regAfter_last {us : List Bool} (hus : 0 < us.length) {k : Nat} (hk : k < 6) :
    regBit (regAfter us) k = tap us (us.length - 1) k := by
  obtain ⟨n, hn⟩ := Nat.exists_eq_add_of_lt hus
  rw [regBit_regAfter us hk, hn]
  simp [tap]

theorem toNat_regAfter {us : List Bool} (hus : 0 < us.length) : (regAfter us).toNat = endIndex us := by
  rw [toNat_eq_sum_regBit, endIndex]
  refine congrArg List.sum (List.map_congr_left fun k hk => ?_)
  rw [regBit_regAfter_last hus (List.mem_range.1 hk)]

/-! ## The output of a step (R107, R110) -/

/-- The generator outputs on the register are the tap sums of the message (R107). -/
theorem gen_regAfter (inv : Bool) (us : List Bool) (u : Bool) :
    gen (regAfter us) u inv =
      (convOut1 (us ++ [u]) us.length, convOut2 inv (us ++ [u]) us.length) := by
  simp only [gen, gen1, gen2, convOut1, convOut2, tap_snoc_zero, tap_snoc_succ, regBit_regAfter,
    Nat.reduceLT, Nat.reduceAdd]

theorem convOut1_append {us : List Bool} {t : Nat} (vs : List Bool) (ht : t < us.length) :
    convOut1 (us ++ vs) t = convOut1 us t := by
  simp only [convOut1, tap_append _ vs ht]

theorem convOut2_append {us : List Bool} {t : Nat} (inv : Bool) (vs : List Bool) (ht : t < us.length) :
    convOut2 inv (us ++ vs) t = convOut2 inv us t := by
  simp only [convOut2, tap_append _ vs ht]

theorem convOut2_true (us : List Bool) (t : Nat) : convOut2 true us t = !convOut2 false us t := by
  simp [convOut2]

theorem convolve_snd (inv : Bool) (r : StateIx) (us : List Bool) :
    (convolve inv r us).2 = us.foldl nextState r := by
  induction us generalizing r with
  | nil => rfl
  | cons u us ih => exact ih _

/-- One more message bit appends the pair that the register and the bit give. -/
theorem convolve_snoc (inv : Bool) (r : StateIx) (us : List Bool) (u : Bool) :
    (convolve inv r (us ++ [u])).1 = (convolve inv r us).1 ++
      [soft (gen (us.foldl nextState r) u inv).1, soft (gen (us.foldl nextState r) u inv).2] := by
  induction us generalizing r with
  | nil => rfl
  | cons v us ih => simp only [List.cons_append, convolve, ih, List.foldl_cons]

/-- From the zero register that pair is the two tap sums of the new step. -/
theorem convolve_zero_snoc (inv : Bool) (us : List Bool) (u : Bool) :
    (convolve inv 0 (us ++ [u])).1 = (convolve inv 0 us).1 ++
      [soft (convOut1 (us ++ [u]) us.length), soft (convOut2 inv (us ++ [u]) us.length)] := by
  rw [convolve_snoc, ← regAfter, gen_regAfter]

/-- The symbols of step `t` are the soft codes of its two tap sums (R110, R112). -/
theorem convolve_symbols (inv : Bool) (us : List Bool) {t : Nat} (ht : t < us.length) :
    (convolve inv 0 us).1[2 * t]? = some (soft (convOut1 us t)) ∧
      (convolve inv 0 us).1[2 * t + 1]? = some (soft (convOut2 inv us t)) := by
  induction us using List.reverseRecOn with
  | nil => cases ht
  | append_singleton us u ih =>
    have hlen := length_convolve inv 0 us
    rw [convolve_zero_snoc]
    rcases Nat.lt_or_ge t us.length with hlt | hge
    · rw [List.getElem?_append_left (by omega), List.getElem?_append_left (by omega),
        convOut1_append _ hlt, convOut2_append _ _ hlt]
      exact ih hlt
    · have he : t = us.length := by
        rw [List.length_append, List.length_singleton] at ht; omega
      subst he
      rw [List.getElem?_append_right (by omega), List.getElem?_append_right (by omega), hlen]
      simp

/-! ## CONV_ENC as a command (R110) -/

/-- CONV_ENC on a written message (R110). -/
theorem exec_convEnc {s : State} {inv : Bool} {len : Len} {us : List Bool}
    (hl : (Instr.convEnc inv len).WellFormed s.cfg.nmax) (hlen : us.length = len.toNat)
    (hmsg : HoldsFromZero s.msg us) :
    exec (.convEnc inv len) s = .next
      { s with
        sym := Memory.writeBlock s.sym 0 (convolve inv 0 us).1
        sr := regAfter us
        result := .ok
        busy := false } := by
  rw [regAfter, ← convolve_snd inv]
  exact (whenLengthOk_ok hl).trans (withMsg_ok (hlen ▸ Memory.readBlock_of_holds hmsg))

/-! ## Linearity and injectivity (R116) -/

@[simp] theorem hard_soft (b : Bool) : hard (soft b) = b := by cases b <;> rfl

theorem soft_injective : Function.Injective soft := Function.LeftInverse.injective hard_soft

theorem regBit_xor (r q : StateIx) (k : Nat) :
    regBit (r ^^^ q) k = Bool.xor (regBit r k) (regBit q k) := BitVec.getLsbD_xor

/-- The shift is linear (R116). -/
theorem nextState_xor (r q : StateIx) (u v : Bool) :
    nextState (r ^^^ q) (Bool.xor u v) = nextState r u ^^^ nextState q v := by
  refine BitVec.eq_of_getLsbD_eq fun i hi => ?_
  rw [BitVec.getLsbD_xor, getLsbD_nextState _ _ hi, getLsbD_nextState _ _ hi, getLsbD_nextState _ _ hi,
    BitVec.getLsbD_xor]
  split <;> rfl

theorem gen1_xor (r q : StateIx) (u v : Bool) :
    gen1 (r ^^^ q) (Bool.xor u v) = Bool.xor (gen1 r u) (gen1 q v) := by
  simp only [gen1, regBit_xor, Bool.xor_assoc, Bool.xor_left_comm]

theorem gen2_xor (r q : StateIx) (u v : Bool) :
    gen2 (r ^^^ q) (Bool.xor u v) false = Bool.xor (gen2 r u false) (gen2 q v false) := by
  simp only [gen2, regBit_xor, Bool.false_xor, Bool.xor_assoc, Bool.xor_left_comm]

/-- Without inversion the hard output is linear in the register and the message together. -/
theorem convolve_linear (r q : StateIx) {us vs : List Bool} (hlen : us.length = vs.length) :
    (convolve false (r ^^^ q) (List.zipWith Bool.xor us vs)).1.map hard =
      List.zipWith Bool.xor ((convolve false r us).1.map hard) ((convolve false q vs).1.map hard) := by
  induction us generalizing r q vs with
  | nil => rfl
  | cons u us ih =>
    cases vs with
    | nil => cases hlen
    | cons v vs =>
      simp only [List.zipWith_cons_cons, convolve, List.map_cons, hard_soft, gen, gen1_xor, gen2_xor,
        nextState_xor, ih (nextState r u) (nextState q v) (Nat.succ.inj hlen)]

/-- The first output bit of a step tells its input bit. -/
theorem gen1_injective (r : StateIx) : Function.Injective (gen1 r) :=
  fun _ _ h => Bool.xor_left_inj.1 h

/-- From one register, messages of one length with the same output are the same. -/
theorem convolve_injective (inv : Bool) (r : StateIx) {us vs : List Bool} (hlen : us.length = vs.length)
    (h : (convolve inv r us).1 = (convolve inv r vs).1) : us = vs := by
  induction us generalizing r vs with
  | nil => exact (List.length_eq_zero_iff.1 hlen.symm).symm
  | cons u us ih =>
    cases vs with
    | nil => cases hlen
    | cons v vs =>
      obtain ⟨hfirst, -, hrest⟩ : soft (gen1 r u) = soft (gen1 r v) ∧ _ ∧
          (convolve inv (nextState r u) us).1 = (convolve inv (nextState r v) vs).1 := by
        simpa only [convolve, gen, List.cons.injEq] using h
      obtain rfl := gen1_injective r (soft_injective hfirst)
      rw [ih _ (Nat.succ.inj hlen) hrest]

/-! ## The columns of the trellis (R117 to R122) -/

/-- The hard bits of step `t` (R118). -/
def receivedPair (xs : List Symbol) (t : Nat) : Bool × Bool :=
  (hardAt xs (2 * t), hardAt xs (2 * t + 1))

/-- Column `t` of the trellis of the received symbols. -/
def columnAt (inv : Bool) (xs : List Symbol) : Nat → List Node
  | 0 => columnZero
  | t + 1 => nextColumn inv (receivedPair xs t) (columnAt inv xs t)

theorem hardPairs_eq_map (xs : List Symbol) :
    hardPairs xs = (List.range (xs.length / 2)).map (receivedPair xs) := by
  induction xs using hardPairs.induct with
  | case1 x y xs ih =>
    rw [hardPairs, ih, List.length_cons, List.length_cons,
      show (xs.length + 1 + 1) / 2 = xs.length / 2 + 1 by omega, List.range_succ_eq_map, List.map_cons,
      List.map_map]
    rfl
  | case2 xs hshort =>
    match xs with
    | [] => rfl
    | [_] => simp [hardPairs]
    | x :: y :: xs => exact absurd rfl (hshort x y xs)

/-- One more pair of hard bits appends the column after the last one. -/
theorem columnsFrom_snoc (inv : Bool) (col : List Node) (hs : List (Bool × Bool)) (h : Bool × Bool) :
    columnsFrom inv col (hs ++ [h]) =
      columnsFrom inv col hs ++ [nextColumn inv h (finalColumn (columnsFrom inv col hs))] := by
  induction hs generalizing col with
  | nil => rfl
  | cons g hs ih =>
    rw [List.cons_append, columnsFrom, ih, columnsFrom, finalColumn_cons (columnsFrom_ne_nil _ _ _)]
    rfl

theorem finalColumn_map_range_succ (f : Nat → List Node) (n : Nat) :
    finalColumn ((List.range (n + 1)).map f) = f n := by
  rw [finalColumn, List.range_succ, List.map_append]
  simp

theorem columnsFrom_map_receivedPair (inv : Bool) (xs : List Symbol) (n : Nat) :
    columnsFrom inv columnZero ((List.range n).map (receivedPair xs)) =
      (List.range (n + 1)).map (columnAt inv xs) := by
  induction n with
  | zero => rfl
  | succ n ih =>
    rw [List.range_succ, List.map_append, List.map_singleton, columnsFrom_snoc, ih,
      finalColumn_map_range_succ, List.range_succ (n := n + 1), List.map_append]
    rfl

theorem buildTrellis_eq_map (inv : Bool) (xs : List Symbol) :
    buildTrellis inv xs = (List.range (xs.length / 2 + 1)).map (columnAt inv xs) := by
  rw [buildTrellis, hardPairs_eq_map, columnsFrom_map_receivedPair]

theorem finalColumn_buildTrellis (inv : Bool) (xs : List Symbol) :
    finalColumn (buildTrellis inv xs) = columnAt inv xs (xs.length / 2) := by
  rw [buildTrellis_eq_map, finalColumn_map_range_succ]

/-- In column 0 only state 0 is reached, with metric 0 (R119). -/
theorem nodeAt_columnZero (r : StateIx) :
    (nodeAt columnZero r).reach = decide (r = 0) ∧ (nodeAt columnZero r).pm = 0 := by
  revert r; decide

/-! ## The relaxation (R121) -/

section relaxation

variable {inv : Bool} {h : Bool × Bool} {col built : List Node} {r n : StateIx} {u : Bool} {m : Nat}

/-- A node is reached with a metric of at most `m`. -/
def ReachedWithin (col : List Node) (n : StateIx) (m : Nat) : Prop :=
  (nodeAt col n).reach = true ∧ (nodeAt col n).pm ≤ m

/-- A reached node holds an edge into its state, from the predecessor it records (R121). -/
def HoldsAnEdge (inv : Bool) (h : Bool × Bool) (col built : List Node) : Prop :=
  ∀ n, (nodeAt built n).reach = true →
    (nodeAt col (nodeAt built n).pred).reach = true ∧
    nextState (nodeAt built n).pred (regBit n 0) = n ∧
    (nodeAt built n).pm = (nodeAt col (nodeAt built n).pred).pm +
      branchMetric (gen (nodeAt built n).pred (regBit n 0) inv) h

/-- What relaxing an edge does: it is passed over when its end has a metric that is no greater, and
otherwise it is recorded. -/
theorem relaxEdge_cases (inv : Bool) (h : Bool × Bool) (col built : List Node) (r : StateIx) (u : Bool) :
    (ReachedWithin built (nextState r u) ((nodeAt col r).pm + branchMetric (gen r u inv) h) ∧
      relaxEdge inv h col built r u = built) ∨
    (¬ ReachedWithin built (nextState r u) ((nodeAt col r).pm + branchMetric (gen r u inv) h) ∧
      relaxEdge inv h col built r u = built.set (nextState r u).toNat
        { reach := true, pm := (nodeAt col r).pm + branchMetric (gen r u inv) h, pred := r }) := by
  unfold relaxEdge ReachedWithin
  dsimp only
  split
  next hkeep =>
    rw [Bool.and_eq_true, decide_eq_true_iff] at hkeep
    exact .inl ⟨hkeep, rfl⟩
  next hset =>
    rw [Bool.and_eq_true, decide_eq_true_iff] at hset
    exact .inr ⟨hset, rfl⟩

theorem relaxEdge_keeps_reachedWithin (hn : ReachedWithin built n m) :
    ReachedWithin (relaxEdge inv h col built r u) n m := by
  obtain ⟨-, he⟩ | ⟨hgt, he⟩ := relaxEdge_cases inv h col built r u <;> rw [he]
  · exact hn
  · rw [ReachedWithin, nodeAt_set]
    split
    next heq =>
      obtain ⟨rfl, -⟩ := heq
      exact ⟨rfl, (Nat.lt_of_not_le fun hle => hgt ⟨hn.1, hn.2.trans hle⟩).le⟩
    next => exact hn

theorem relaxEdge_reachedWithin (hlen : built.length = numStates) :
    ReachedWithin (relaxEdge inv h col built r u) (nextState r u)
      ((nodeAt col r).pm + branchMetric (gen r u inv) h) := by
  obtain ⟨hle, he⟩ | ⟨-, he⟩ := relaxEdge_cases inv h col built r u <;> rw [he]
  · exact hle
  · rw [ReachedWithin, nodeAt_set, if_pos ⟨rfl, hlen ▸ (nextState r u).isLt⟩]
    exact ⟨rfl, le_rfl⟩

theorem relaxState_keeps_reachedWithin (hn : ReachedWithin built n m) :
    ReachedWithin (relaxState inv h col built r) n m := by
  unfold relaxState
  split
  · exact relaxEdge_keeps_reachedWithin (relaxEdge_keeps_reachedWithin hn)
  · exact hn

theorem relaxState_reachedWithin (hr : (nodeAt col r).reach = true) (hlen : built.length = numStates) :
    ReachedWithin (relaxState inv h col built r) (nextState r u)
      ((nodeAt col r).pm + branchMetric (gen r u inv) h) := by
  rw [relaxState, if_pos hr]
  cases u with
  | false => exact relaxEdge_keeps_reachedWithin (relaxEdge_reachedWithin hlen)
  | true => exact relaxEdge_reachedWithin ((length_relaxEdge inv h false).trans hlen)

/-- Every edge from a reached state bounds the metric of its end in the next column. -/
theorem nextColumn_reachedWithin (inv : Bool) (h : Bool × Bool) (u : Bool)
    (hr : (nodeAt col r).reach = true) :
    ReachedWithin (nextColumn inv h col) (nextState r u)
      ((nodeAt col r).pm + branchMetric (gen r u inv) h) := by
  refine foldl_of_mem
    (P := fun built => ReachedWithin built (nextState r u)
      ((nodeAt col r).pm + branchMetric (gen r u inv) h))
    (Q := fun built => built.length = numStates) (toNat_mem_range r) List.length_replicate
    (fun built _ hlen => (length_relaxState inv h).trans hlen)
    (fun built _ hn => relaxState_keeps_reachedWithin hn) fun built hlen => ?_
  rw [BitVec.ofNat_toNat, BitVec.setWidth_eq]
  exact relaxState_reachedWithin hr hlen

theorem relaxEdge_holdsAnEdge (hr : (nodeAt col r).reach = true) (hb : HoldsAnEdge inv h col built) :
    HoldsAnEdge inv h col (relaxEdge inv h col built r u) := by
  obtain ⟨-, he⟩ | ⟨-, he⟩ := relaxEdge_cases inv h col built r u <;> rw [he]
  · exact hb
  · intro n
    rw [nodeAt_set]
    split
    next heq =>
      obtain ⟨rfl, -⟩ := heq
      rw [regBit_nextState_zero]
      exact fun _ => ⟨hr, rfl, rfl⟩
    next => exact hb n

theorem relaxState_holdsAnEdge (hb : HoldsAnEdge inv h col built) :
    HoldsAnEdge inv h col (relaxState inv h col built r) := by
  unfold relaxState
  split
  next hr => exact relaxEdge_holdsAnEdge hr (relaxEdge_holdsAnEdge hr hb)
  next => exact hb

theorem nodeAt_replicate_unreached (k : Nat) (r : StateIx) :
    nodeAt (List.replicate k unreached) r = unreached := by
  rw [nodeAt, List.getD_eq_getElem?_getD, List.getElem?_replicate]
  split <;> rfl

theorem nextColumn_holdsAnEdge (inv : Bool) (h : Bool × Bool) (col : List Node) :
    HoldsAnEdge inv h col (nextColumn inv h col) := by
  refine List.foldlRecOn _ _ (fun n hn => ?_) fun built hb _ _ => relaxState_holdsAnEdge hb
  rw [nodeAt_replicate_unreached] at hn
  cases hn

end relaxation

/-! ## The metrics of the columns are least distances (R117, R120) -/

/-- The distance of a message is the sum of the branch metrics of its steps (R120). -/
theorem pathMetric_eq_sum (inv : Bool) (us : List Bool) (xs : List Symbol) :
    pathMetric inv us xs = ((List.range us.length).map fun t =>
      branchMetric (convOut1 us t, convOut2 inv us t) (receivedPair xs t)).sum := rfl

/-- One more message bit adds the metric of its edge. -/
theorem pathMetric_snoc (inv : Bool) (us : List Bool) (u : Bool) (xs : List Symbol) :
    pathMetric inv (us ++ [u]) xs = pathMetric inv us xs +
      branchMetric (gen (regAfter us) u inv) (receivedPair xs us.length) := by
  rw [pathMetric_eq_sum, pathMetric_eq_sum, gen_regAfter, List.length_append, List.length_singleton,
    List.range_succ, List.map_append, List.sum_append, List.map_singleton, List.sum_singleton]
  refine congrArg (· + _) (congrArg List.sum (List.map_congr_left fun t ht => ?_))
  have hlt := List.mem_range.1 ht
  rw [convOut1_append _ hlt, convOut2_append _ _ hlt]

/-- Every message is a path of the trellis, and its distance bounds the metric of the node it ends in. -/
theorem columnAt_reachedWithin (inv : Bool) (us : List Bool) (xs : List Symbol) :
    ReachedWithin (columnAt inv xs us.length) (regAfter us) (pathMetric inv us xs) := by
  induction us using List.reverseRecOn with
  | nil => exact ⟨rfl, Nat.le_refl 0⟩
  | append_singleton us u ih =>
    obtain ⟨hreach, hpm⟩ := ih
    obtain ⟨hreach', hpm'⟩ := nextColumn_reachedWithin inv (receivedPair xs us.length) u hreach
    rw [regAfter_snoc, pathMetric_snoc, List.length_append, List.length_singleton]
    exact ⟨hreach', hpm'.trans (Nat.add_le_add_right hpm _)⟩

theorem columnAt_holdsAnEdge (inv : Bool) (xs : List Symbol) (t : Nat) :
    HoldsAnEdge inv (receivedPair xs t) (columnAt inv xs t) (columnAt inv xs (t + 1)) :=
  nextColumn_holdsAnEdge inv _ _

/-- The input bits of the recorded path into a state of column `t` (R126). -/
def survivor (inv : Bool) (xs : List Symbol) : Nat → StateIx → List Bool
  | 0, _ => []
  | t + 1, n => survivor inv xs t (nodeAt (columnAt inv xs (t + 1)) n).pred ++ [regBit n 0]

/-- The recorded path into a reached node ends in it and has its metric. -/
theorem survivor_spec (inv : Bool) (xs : List Symbol) {t : Nat} {n : StateIx}
    (hn : (nodeAt (columnAt inv xs t) n).reach = true) :
    (survivor inv xs t n).length = t ∧ regAfter (survivor inv xs t n) = n ∧
      pathMetric inv (survivor inv xs t n) xs = (nodeAt (columnAt inv xs t) n).pm := by
  induction t generalizing n with
  | zero =>
    obtain ⟨hreach, hpm⟩ := nodeAt_columnZero n
    have hn0 : n = 0 := of_decide_eq_true (hreach.symm.trans hn)
    exact ⟨rfl, hn0.symm, hpm.symm⟩
  | succ t ih =>
    obtain ⟨hpred, hnext, hpm⟩ := columnAt_holdsAnEdge inv xs t n hn
    obtain ⟨hlen, hreg, hmetric⟩ := ih hpred
    rw [survivor, List.length_append, regAfter_snoc, pathMetric_snoc, hlen, hreg, hmetric]
    exact ⟨rfl, hnext, hpm.symm⟩

/-! ## The traceback (R126) -/

theorem traceback_append (cols : List (List Node)) (r : StateIx) (acc : List Bool) :
    traceback cols r acc = traceback cols r [] ++ acc := by
  induction cols generalizing r acc with
  | nil => rfl
  | cons col cols ih =>
    cases cols with
    | nil => rfl
    | cons earlier cols => rw [traceback, traceback, ih, ih _ [_], List.append_assoc]; rfl

/-- The traceback from column `t` gives the recorded path. -/
theorem decodedMessage_columns (inv : Bool) (xs : List Symbol) (t : Nat) (n : StateIx) :
    decodedMessage ((List.range (t + 1)).map (columnAt inv xs)) n = survivor inv xs t n := by
  induction t generalizing n with
  | zero => rfl
  | succ t ih =>
    have hcols (k : Nat) : ((List.range (k + 1)).map (columnAt inv xs)).reverse =
        columnAt inv xs k :: ((List.range k).map (columnAt inv xs)).reverse := by
      rw [List.range_succ, List.map_append, List.reverse_append]; rfl
    have ih := ih (nodeAt (columnAt inv xs (t + 1)) n).pred
    rw [decodedMessage, hcols] at ih ⊢
    rw [hcols, traceback, traceback_append, ih, survivor]

theorem decodedMessage_buildTrellis (inv : Bool) (xs : List Symbol) (n : StateIx) :
    decodedMessage (buildTrellis inv xs) n = survivor inv xs (xs.length / 2) n := by
  rw [buildTrellis_eq_map, decodedMessage_columns]

/-! ## The final selection (R124) -/

/-- No reached state below `k` has a smaller metric than `b`, and none of a lower index than `b` has the
same one. -/
def BeatsBelow (col : List Node) (k : Nat) (b : StateIx) : Prop :=
  ∀ n : StateIx, n.toNat < k → (nodeAt col n).reach = true →
    (nodeAt col b).pm ≤ (nodeAt col n).pm ∧ (n < b → (nodeAt col b).pm < (nodeAt col n).pm)

/-- What the selection has found once it has compared the states below `k`. -/
def SelectedBelow (col : List Node) (k : Nat) : Option StateIx → Prop
  | none => ∀ n : StateIx, n.toNat < k → (nodeAt col n).reach = false
  | some b => b.toNat < k ∧ (nodeAt col b).reach = true ∧ BeatsBelow col k b

theorem toNat_lt_succ_iff {n r : StateIx} : n.toNat < r.toNat + 1 ↔ n.toNat < r.toNat ∨ n = r := by
  rw [Nat.lt_succ_iff_lt_or_eq, BitVec.toNat_inj]

theorem BeatsBelow.succ {col : List Node} {r b : StateIx} (h : BeatsBelow col r.toNat b)
    (hr : (nodeAt col r).reach = true →
      (nodeAt col b).pm ≤ (nodeAt col r).pm ∧ (r < b → (nodeAt col b).pm < (nodeAt col r).pm)) :
    BeatsBelow col (r.toNat + 1) b := by
  intro n hn
  rcases toNat_lt_succ_iff.1 hn with hlt | rfl
  · exact h n hlt
  · exact hr

/-- Each comparison extends what the selection has found by one state. -/
theorem betterFinal_selectedBelow {col : List Node} {r : StateIx} {best : Option StateIx}
    (h : SelectedBelow col r.toNat best) :
    SelectedBelow col (r.toNat + 1) (betterFinal col best r) := by
  unfold betterFinal
  by_cases hr : (nodeAt col r).reach = true
  · rw [if_pos hr]
    cases best with
    | none =>
      refine ⟨Nat.lt_succ_self _, hr, BeatsBelow.succ (fun n hn hreach => ?_) fun _ => ?_⟩
      · rw [h n hn] at hreach; cases hreach
      · exact ⟨le_rfl, fun hlt => absurd hlt (BitVec.lt_irrefl r)⟩
    | some b =>
      obtain ⟨hbr, hreach, hbeats⟩ := h
      dsimp only
      split
      next hlt =>
        refine ⟨Nat.lt_succ_self _, hr, BeatsBelow.succ (fun n hn hn' => ?_) fun _ => ?_⟩
        · have hless := hlt.trans_le (hbeats n hn hn').1
          exact ⟨hless.le, fun _ => hless⟩
        · exact ⟨le_rfl, fun hlt => absurd hlt (BitVec.lt_irrefl r)⟩
      next hge =>
        exact ⟨Nat.lt_succ_of_lt hbr, hreach, hbeats.succ fun _ =>
          ⟨Nat.le_of_not_lt hge, fun hrb => absurd (BitVec.lt_def.1 hrb) (Nat.lt_asymm hbr)⟩⟩
  · rw [if_neg hr]
    cases best with
    | none =>
      intro n hn
      rcases toNat_lt_succ_iff.1 hn with hlt | rfl
      · exact h n hlt
      · exact Bool.eq_false_of_not_eq_true hr
    | some b =>
      obtain ⟨hbr, hreach, hbeats⟩ := h
      exact ⟨Nat.lt_succ_of_lt hbr, hreach, hbeats.succ fun hr' => absurd hr' hr⟩

theorem selection_selectedBelow (col : List Node) {k : Nat} (hk : k ≤ numStates) :
    SelectedBelow col k
      ((List.range k).foldl (fun best j => betterFinal col best (BitVec.ofNat 6 j)) none) := by
  induction k with
  | zero => exact fun n hn => absurd hn (Nat.not_lt_zero _)
  | succ k ih =>
    have hnat : (BitVec.ofNat 6 k).toNat = k := Nat.mod_eq_of_lt hk
    have hstep := betterFinal_selectedBelow (r := BitVec.ofNat 6 k) (hnat.symm ▸ ih (Nat.le_of_succ_le hk))
    rw [List.range_succ, List.foldl_append]
    rwa [hnat] at hstep

/-- The state selected is the reachable one of least metric, the lowest one on a tie (R124). -/
theorem selectFinal_spec {col : List Node} {b : StateIx} (h : selectFinal col = some b) :
    (nodeAt col b).reach = true ∧ BeatsBelow col numStates b := by
  have hsel : SelectedBelow col numStates (selectFinal col) := selection_selectedBelow col le_rfl
  rw [h] at hsel
  exact hsel.2

/-! ## VIT_DEC as a command (R127) -/

theorem fmetricField_vitInfoWord (b : StateIx) {m : Nat} (hm : m < 2 ^ 16) :
    fmetricField (vitInfoWord b m) = m := by
  rw [fmetricField, fmetric_vitInfoWord, BitVec.toNat_ofNat, Nat.mod_eq_of_lt hm]

theorem fstateField_vitInfoWord (b : StateIx) (m : Nat) : fstateField (vitInfoWord b m) = b :=
  fstate_vitInfoWord b m

/-- VIT_DEC on written symbols builds their trellis and finishes (R127). -/
theorem exec_vitDec {s : State} {inv strict : Bool} {len : Len} {xs : List Symbol}
    (hl : (Instr.vitDec inv strict len).WellFormed s.cfg.nmax) (hlen : xs.length = 2 * len.toNat)
    (hsym : HoldsFromZero s.sym xs) :
    exec (.vitDec inv strict len) s = .next (finishDecode strict (buildTrellis inv xs) s) :=
  (whenLengthOk_ok hl).trans (withSym_ok (hlen ▸ Memory.readBlock_of_holds hsym))

/-- VIT_DEC reports the state it selects and that state's metric, and on OK MSG holds the recorded
path into it (R126, R128). -/
theorem finishDecode_reports (inv strict : Bool) (xs : List Symbol) (s : State) :
    ∃ b, selectFinal (finalColumn (buildTrellis inv xs)) = some b ∧
      (finishDecode strict (buildTrellis inv xs) s).vitInfo =
        vitInfoWord b (nodeAt (finalColumn (buildTrellis inv xs)) b).pm ∧
      ((finishDecode strict (buildTrellis inv xs) s).result = .ok →
        HoldsFromZero (finishDecode strict (buildTrellis inv xs) s).msg
          (survivor inv xs (xs.length / 2) b)) := by
  obtain ⟨hnone, -⟩ | ⟨b, hb, ⟨-, -, he⟩ | ⟨-, he⟩⟩ := finishDecode_cases strict (buildTrellis inv xs) s
  · exact absurd hnone (selectFinal_buildTrellis_ne_none inv xs)
  · rw [he]
    exact ⟨b, hb, rfl, fun h => by cases h⟩
  · rw [he]
    exact ⟨b, hb, rfl, fun _ => decodedMessage_buildTrellis inv xs b ▸ Memory.holds_writeBlock s.msg _⟩

/-! ## The statements -/

/-- Settles O47: the generators select register bits, and bit 5 of the next state is the input. -/
theorem generatorsOnStateIndices : Obligations.GeneratorsOnStateIndices := by
  intro r u inv
  refine ⟨?_, regBit_nextState_zero r u, rfl, ?_⟩
  · revert r u; decide
  · simp only [gen, gen2, regBit, Nat.reduceSub, Bool.xor_comm inv, Bool.xor_assoc]

/-- Settles O48, by the symbols of each step and the register after the message. -/
theorem convEncEncodesTheMessage : Obligations.ConvEncEncodesTheMessage := by
  intro s inv len us hl hlen hmsg
  have hn : 0 < us.length := hlen ▸ len_pos_of_lengthOk_convEnc hl
  have hout := length_convolve inv 0 us
  refine ⟨_, _, exec_convEnc hl hlen hmsg, fun t ht => ?_, fun k hk => ?_,
    fun k hk => regBit_regAfter_last hn hk⟩
  · obtain ⟨h1, h2⟩ := convolve_symbols inv us ht
    rw [Memory.holds_writeBlock _ _ _ (by omega), Memory.holds_writeBlock _ _ _ (by omega)]
    exact ⟨h1, h2⟩
  · rw [Memory.read_writeBlock, if_neg (by omega)]

/-- Settles O49: the inverted second tap sum is the complement of the other. -/
theorem inversionFlipsTheSecondSymbols : Obligations.InversionFlipsTheSecondSymbols := by
  intro s len hl hwritten
  obtain ⟨us, hlen, hmsg⟩ := Memory.holds_of_written hwritten
  obtain ⟨m, sr, hexec, hsym, -⟩ := convEncEncodesTheMessage s false len us hl hlen hmsg
  obtain ⟨m', sr', hexec', hsym', -⟩ := convEncEncodesTheMessage s true len us hl hlen hmsg
  refine ⟨_, _, hexec, hexec', fun k hk => ?_⟩
  obtain ⟨h1, h2⟩ := hsym k (hlen ▸ hk)
  obtain ⟨h1', h2'⟩ := hsym' k (hlen ▸ hk)
  rw [convOut2_true] at h2'
  refine ⟨h1'.trans h1.symm, ?_⟩
  cases h : convOut2 false us k <;> simp [h2, h2', h]

/-- Settles O50, from the zero register. -/
theorem convolutionalCodeIsLinearAndInjective : Obligations.ConvolutionalCodeIsLinearAndInjective :=
  ⟨fun _ _ hlen => convolve_linear 0 0 hlen, fun inv _ _ hlen h => convolve_injective inv 0 hlen h⟩

/-- Settles O53: the metrics of column N are least distances, and the recorded path attains its own. -/
theorem vitDecFindsALeastDistanceMessage : Obligations.VitDecFindsALeastDistanceMessage := by
  intro s inv strict len xs ⟨_, hnmax, _⟩ hl hxs hsym
  have hpos := len_pos_of_lengthOk_vitDec hl
  have hmax := len_le_of_lengthOk_vitDec hl
  obtain ⟨b, hb, hinfo, hmsg⟩ := finishDecode_reports inv strict xs s
  have hhalf : xs.length / 2 = len.toNat := by omega
  have hpm := finalColumn_buildTrellis_pmAtMost inv xs b
  obtain ⟨hreach, hbeats⟩ := selectFinal_spec hb
  rw [hhalf] at hmsg
  rw [finalColumn_buildTrellis, hhalf] at hinfo hreach hbeats hpm
  obtain ⟨hlen, hreg, hmetric⟩ := survivor_spec inv xs hreach
  have hbits (k : Nat) (hk : k < 6) :
      regBit b k = tap (survivor inv xs len.toNat b) ((survivor inv xs len.toNat b).length - 1) k := by
    rw [← regBit_regAfter_last (by omega) hk, hreg]
  have hfmetric : fmetricField (vitInfoWord b (nodeAt (columnAt inv xs len.toNat) b).pm) =
      (nodeAt (columnAt inv xs len.toNat) b).pm := fmetricField_vitInfoWord b (by omega)
  refine ⟨_, survivor inv xs len.toNat b, exec_vitDec hl hxs hsym, hlen, ?_⟩
  rw [hinfo, hfmetric, fstateField_vitInfoWord, finalColumn_buildTrellis, hhalf]
  refine ⟨hmetric, fun vs hvs => ?_, ⟨hreach, rfl, fun n hn => hbeats n n.isLt hn⟩, hbits, hmsg⟩
  obtain ⟨hreach', hpm'⟩ := columnAt_reachedWithin inv vs xs
  rw [hvs] at hreach' hpm'
  obtain ⟨hle, hlt⟩ := hbeats _ (regAfter vs).isLt hreach'
  refine ⟨hle.trans hpm', fun hindex => (hlt ?_).trans_le hpm'⟩
  rwa [BitVec.lt_def, toNat_regAfter (by omega)]

end Sys2Proof.Machine

/-! The statements about the decoder (R117 to R132): which of two edges into a node is kept, which nodes
are reached, how the metrics grow, what VIT_DEC writes, and that it inverts CONV_ENC. The columns of the
trellis are `columnAt`, and every message is a path through them. -/

namespace Sys2Proof.Machine

open Claims

/-! ## The two edges into a node (R123) -/

/-- The state with oldest register bit `b` from which an edge leads into state `n` (R123). -/
def predecessor (n : StateIx) (b : Bool) : StateIx :=
  (n &&& 31#6) <<< 1 ||| place 6 0 (BitVec.ofBool b)

/-- A predecessor holds the lower five bits of the node one place up, and `b` as its oldest bit. -/
theorem getLsbD_predecessor (n : StateIx) (b : Bool) {i : Nat} (hi : i < 6) :
    (predecessor n b).getLsbD i = if i = 0 then b else n.getLsbD (i - 1) := by
  revert n b i; decide

theorem predecessor_false (n : StateIx) : predecessor n false = (n &&& 31#6) <<< 1 := BitVec.or_zero

theorem predecessor_true (n : StateIx) : predecessor n true = (n &&& 31#6) <<< 1 ||| 1#6 := rfl

theorem predecessor_lt (n : StateIx) : predecessor n false < predecessor n true := by
  revert n; decide

/-- Two states are the two ends of an edge exactly when the input is the leading bit of the second and the
first is one of its predecessors. -/
theorem nextState_eq_iff {p n : StateIx} {u : Bool} :
    nextState p u = n ↔ u = regBit n 0 ∧ ∃ b, p = predecessor n b := by
  constructor
  · rintro rfl
    refine ⟨(regBit_nextState_zero p u).symm, p.getLsbD 0, BitVec.eq_of_getLsbD_eq fun i hi => ?_⟩
    rw [getLsbD_predecessor _ _ hi]
    split
    next h => rw [h]
    next h => rw [getLsbD_nextState _ _ (by omega), if_neg (by omega), Nat.sub_add_cancel (by omega)]
  · rintro ⟨rfl, b, rfl⟩
    refine BitVec.eq_of_getLsbD_eq fun i hi => ?_
    rw [getLsbD_nextState _ _ hi]
    split
    next h => rw [h]; rfl
    next h => rw [getLsbD_predecessor _ _ (by omega), if_neg (by omega), Nat.add_sub_cancel]

/-- The edge from a predecessor of a node ends in the node. -/
theorem nextState_predecessor (n : StateIx) (b : Bool) : nextState (predecessor n b) (regBit n 0) = n :=
  nextState_eq_iff.2 ⟨rfl, b, rfl⟩

section tie

variable {inv : Bool} {h : Bool × Bool} {col built : List Node} {p q r n : StateIx} {u : Bool} {m : Nat}

/-- Node `n`, when it records the predecessor `q`, has a metric below `m`. -/
def RecordsOnlyBelow (built : List Node) (n q : StateIx) (m : Nat) : Prop :=
  (nodeAt built n).reach = true → (nodeAt built n).pred = q → (nodeAt built n).pm < m

/-- Once a node is reached within `m`, an edge is recorded there only with a metric below `m`. -/
theorem relaxEdge_recordsOnlyBelow (hb : RecordsOnlyBelow built n q m)
    (hq : r = q → ReachedWithin built n m) :
    RecordsOnlyBelow (relaxEdge inv h col built r u) n q m := by
  obtain ⟨-, he⟩ | ⟨hgt, he⟩ := relaxEdge_cases inv h col built r u <;> rw [he]
  · exact hb
  · rw [RecordsOnlyBelow, nodeAt_set]
    split
    next heq =>
      obtain ⟨rfl, -⟩ := heq
      intro _ hrq
      obtain ⟨hreach, hpm⟩ := hq hrq
      exact Nat.lt_of_not_le fun hle => hgt ⟨hreach, hpm.trans hle⟩
    next => exact hb

theorem relaxState_recordsOnlyBelow (hb : RecordsOnlyBelow built n q m)
    (hq : r = q → ReachedWithin built n m) :
    RecordsOnlyBelow (relaxState inv h col built r) n q m := by
  unfold relaxState
  split
  · exact relaxEdge_recordsOnlyBelow (relaxEdge_recordsOnlyBelow hb hq) fun hrq =>
      relaxEdge_keeps_reachedWithin (hq hrq)
  · exact hb

/-- The column being built once the states below `k` are relaxed (R122). -/
def relaxedBelow (inv : Bool) (h : Bool × Bool) (col : List Node) (k : Nat) : List Node :=
  (List.range k).foldl (fun built j => relaxState inv h col built (BitVec.ofNat 6 j))
    (List.replicate numStates unreached)

theorem nextColumn_eq_relaxedBelow (inv : Bool) (h : Bool × Bool) (col : List Node) :
    nextColumn inv h col = relaxedBelow inv h col numStates := rfl

theorem relaxedBelow_succ (inv : Bool) (h : Bool × Bool) (col : List Node) (k : Nat) :
    relaxedBelow inv h col (k + 1) =
      relaxState inv h col (relaxedBelow inv h col k) (BitVec.ofNat 6 k) := by
  rw [relaxedBelow, List.range_succ, List.foldl_append]; rfl

theorem length_relaxedBelow (inv : Bool) (h : Bool × Bool) (col : List Node) (k : Nat) :
    (relaxedBelow inv h col k).length = numStates := by
  induction k with
  | zero => exact List.length_replicate
  | succ k ih => rw [relaxedBelow_succ, length_relaxState, ih]

/-- Once a reached state is relaxed, its edges bound the metrics of their ends. -/
theorem relaxedBelow_reachedWithin (inv : Bool) (h : Bool × Bool) (u : Bool)
    (hp : (nodeAt col p).reach = true) {k : Nat} (hk : p.toNat < k) :
    ReachedWithin (relaxedBelow inv h col k) (nextState p u)
      ((nodeAt col p).pm + branchMetric (gen p u inv) h) := by
  induction k with
  | zero => cases hk
  | succ k ih =>
    rw [relaxedBelow_succ]
    rcases Nat.lt_succ_iff_lt_or_eq.1 hk with hlt | rfl
    · exact relaxState_keeps_reachedWithin (ih hlt)
    · rw [BitVec.ofNat_toNat, BitVec.setWidth_eq]
      exact relaxState_reachedWithin hp (length_relaxedBelow inv h col _)

/-- States are relaxed in ascending order, so a node records a predecessor only with a metric below that
of the edge from any lower reached state (R121, R122). -/
theorem relaxedBelow_recordsOnlyBelow (inv : Bool) (h : Bool × Bool) (u : Bool)
    (hp : (nodeAt col p).reach = true) (hpq : p < q) {k : Nat} (hk : k ≤ numStates) :
    RecordsOnlyBelow (relaxedBelow inv h col k) (nextState p u) q
      ((nodeAt col p).pm + branchMetric (gen p u inv) h) := by
  induction k with
  | zero =>
    intro hreach
    rw [relaxedBelow, List.range_zero, List.foldl_nil, nodeAt_replicate_unreached] at hreach
    cases hreach
  | succ k ih =>
    rw [relaxedBelow_succ]
    refine relaxState_recordsOnlyBelow (ih (Nat.le_of_succ_le hk)) fun hkq =>
      relaxedBelow_reachedWithin inv h u hp ?_
    rwa [← hkq, BitVec.lt_def, BitVec.toNat_ofNat, Nat.mod_eq_of_lt hk] at hpq

end tie

section kept

variable (inv : Bool) (h : Bool × Bool) (col : List Node) (n : StateIx)

/-- The metric a node takes over the edge from its predecessor `b` (R120, R123). -/
def edgeMetric (b : Bool) : Nat :=
  (nodeAt col (predecessor n b)).pm + branchMetric (gen (predecessor n b) (regBit n 0) inv) h

/-- A reached node records one of its two predecessors, and the metric of the edge from it. -/
theorem nextColumn_records (hn : (nodeAt (nextColumn inv h col) n).reach = true) :
    ∃ b, (nodeAt col (predecessor n b)).reach = true ∧
      (nodeAt (nextColumn inv h col) n).pred = predecessor n b ∧
      (nodeAt (nextColumn inv h col) n).pm = edgeMetric inv h col n b := by
  obtain ⟨hreach, hnext, hpm⟩ := nextColumn_holdsAnEdge inv h col n hn
  obtain ⟨-, b, hb⟩ := nextState_eq_iff.1 hnext
  rw [hb] at hreach hpm
  exact ⟨b, hreach, hb, hpm⟩

/-- A reached predecessor reaches the node, within the metric of its edge. -/
theorem nextColumn_within_edgeMetric {b : Bool} (hb : (nodeAt col (predecessor n b)).reach = true) :
    ReachedWithin (nextColumn inv h col) n (edgeMetric inv h col n b) := by
  have hwithin := nextColumn_reachedWithin inv h (regBit n 0) hb
  rwa [nextState_predecessor] at hwithin

theorem nextColumn_reach_iff :
    (nodeAt (nextColumn inv h col) n).reach = true ↔
      (nodeAt col (predecessor n false)).reach = true ∨ (nodeAt col (predecessor n true)).reach = true := by
  constructor
  · intro hn
    obtain ⟨b, hb, -⟩ := nextColumn_records inv h col n hn
    cases b with
    | false => exact .inl hb
    | true => exact .inr hb
  · rintro (hb | hb)
    · exact (nextColumn_within_edgeMetric inv h col n hb).1
    · exact (nextColumn_within_edgeMetric inv h col n hb).1

/-- The predecessor with b = 0 is kept unless the other one gives a smaller metric. -/
theorem nextColumn_keeps_false (h0 : (nodeAt col (predecessor n false)).reach = true)
    (hle : (nodeAt col (predecessor n true)).reach = false ∨
      edgeMetric inv h col n false ≤ edgeMetric inv h col n true) :
    (nodeAt (nextColumn inv h col) n).pred = predecessor n false ∧
      (nodeAt (nextColumn inv h col) n).pm = edgeMetric inv h col n false := by
  have hn := (nextColumn_within_edgeMetric inv h col n h0).1
  obtain ⟨b, hb, hpred, hpm⟩ := nextColumn_records inv h col n hn
  cases b with
  | false => exact ⟨hpred, hpm⟩
  | true =>
    have hlt := relaxedBelow_recordsOnlyBelow inv h (regBit n 0) h0 (predecessor_lt n) le_rfl
    rw [← nextColumn_eq_relaxedBelow, nextState_predecessor] at hlt
    have hbelow : edgeMetric inv h col n true < edgeMetric inv h col n false := hpm ▸ hlt hn hpred
    rcases hle with hno | hle
    · rw [hno] at hb; cases hb
    · exact absurd hbelow (Nat.not_lt_of_le hle)

/-- The predecessor with b = 1 is kept when the other one is not reached or gives a greater metric. -/
theorem nextColumn_keeps_true (h1 : (nodeAt col (predecessor n true)).reach = true)
    (hlt : (nodeAt col (predecessor n false)).reach = false ∨
      edgeMetric inv h col n true < edgeMetric inv h col n false) :
    (nodeAt (nextColumn inv h col) n).pred = predecessor n true ∧
      (nodeAt (nextColumn inv h col) n).pm = edgeMetric inv h col n true := by
  obtain ⟨hn, hle⟩ := nextColumn_within_edgeMetric inv h col n h1
  obtain ⟨b, hb, hpred, hpm⟩ := nextColumn_records inv h col n hn
  cases b with
  | true => exact ⟨hpred, hpm⟩
  | false =>
    rcases hlt with hno | hlt
    · rw [hno] at hb; cases hb
    · exact absurd hlt (Nat.not_lt_of_le (hpm ▸ hle))

end kept

/-! ## Nodes of the trellis (R119, R129, R130) -/

/-- A node of the trellis is the node of its column up to column N. -/
theorem nodeOf_buildTrellis (inv : Bool) {xs : List Symbol} {t : Nat} (ht : t ≤ xs.length / 2)
    (n : StateIx) : nodeOf (buildTrellis inv xs) t n = nodeAt (columnAt inv xs t) n := by
  rw [nodeOf, buildTrellis_eq_map, List.getD_eq_getElem?_getD, List.getElem?_map,
    List.getElem?_range (Nat.lt_succ_of_le ht)]
  rfl

theorem length_buildTrellis (inv : Bool) (xs : List Symbol) :
    (buildTrellis inv xs).length = xs.length / 2 + 1 := by
  rw [buildTrellis, length_columnsFrom, length_hardPairs]

/-- Only the columns up to N have reachable nodes. -/
theorem le_half_of_reach {inv : Bool} {xs : List Symbol} {t : Nat} {n : StateIx}
    (hn : (nodeOf (buildTrellis inv xs) t n).reach = true) : t ≤ xs.length / 2 := by
  refine Nat.le_of_lt_succ (Nat.lt_of_not_le fun hge => ?_)
  rw [nodeOf, List.getD_eq_default _ _ (by rwa [length_buildTrellis]), nodeAt, List.getD_nil] at hn
  cases hn

/-- Every message of `t` bits reaches the state it ends in in column `t`. -/
theorem columnAt_reaches_regAfter (inv : Bool) (xs : List Symbol) {t : Nat} {us : List Bool}
    (hus : us.length = t) : (nodeAt (columnAt inv xs t) (regAfter us)).reach = true :=
  hus ▸ (columnAt_reachedWithin inv us xs).1

/-- Zero input bits keep the register at 0. -/
theorem regAfter_replicate_false (t : Nat) : regAfter (List.replicate t false) = 0 := by
  induction t with
  | zero => rfl
  | succ t ih => rw [List.replicate_succ', regAfter_snoc, ih]; rfl

theorem columnAt_reaches_zero (inv : Bool) (xs : List Symbol) (t : Nat) :
    (nodeAt (columnAt inv xs t) 0).reach = true := by
  have hreach := columnAt_reaches_regAfter inv xs (List.length_replicate (n := t) (a := false))
  rwa [regAfter_replicate_false] at hreach

/-- The last `k` of at most six input bits stand at the top of the register, whatever it held before. -/
theorem getLsbD_foldl_nextState (r : StateIx) (f : Nat → Bool) {k i : Nat} (hk : k ≤ 6) (hi : i < 6)
    (hki : 6 ≤ i + k) : (((List.range k).map f).foldl nextState r).getLsbD i = f (i + k - 6) := by
  induction k generalizing i with
  | zero => omega
  | succ k ih =>
    rw [List.range_succ, List.map_append, List.foldl_append, List.map_singleton, List.foldl_cons,
      List.foldl_nil, getLsbD_nextState _ _ hi]
    split
    next h => rw [h, show 5 + (k + 1) - 6 = k by omega]
    next h => rw [ih (by omega) (by omega) (by omega), show i + 1 + k - 6 = i + (k + 1) - 6 by omega]

/-- Six input bits fill the register: the bits of a state, the oldest first, lead there from any state. -/
theorem foldl_nextState_bits (r n : StateIx) :
    ((List.range 6).map n.getLsbD).foldl nextState r = n :=
  BitVec.eq_of_getLsbD_eq fun i hi => getLsbD_foldl_nextState r n.getLsbD le_rfl hi (Nat.le_add_left 6 i)

/-- From column 6 on every state is reachable (R129). -/
theorem columnAt_reaches_all (inv : Bool) (xs : List Symbol) {t : Nat} (ht : 6 ≤ t) (n : StateIx) :
    (nodeAt (columnAt inv xs t) n).reach = true := by
  have hreg : regAfter (List.replicate (t - 6) false ++ (List.range 6).map n.getLsbD) = n := by
    rw [regAfter, List.foldl_append, foldl_nextState_bits]
  rw [← hreg]
  refine columnAt_reaches_regAfter inv xs ?_
  rw [List.length_append, List.length_replicate, List.length_map, List.length_range]
  omega

theorem columnAt_pmAtMost (inv : Bool) (xs : List Symbol) (t : Nat) :
    PmAtMost (2 * t) (columnAt inv xs t) := by
  induction t with
  | zero => exact pmAtMost_columnZero
  | succ t ih => exact nextColumn_pmAtMost inv (receivedPair xs t) ih

/-! ## How VIT_DEC ends (R125 to R128) -/

/-- VIT_DEC selects a state of the least final metric and reports it. Under STRICT with a metric that is
not 0 it ends in NO_VALID_PATH with MSG as before, and otherwise in OK with the message written. -/
theorem finishDecode_eq (inv strict : Bool) (xs : List Symbol) (s : State) :
    ∃ b m code, finishDecode strict (buildTrellis inv xs) s =
        { s with
          msg := m
          vitInfo := vitInfoWord b (nodeAt (finalColumn (buildTrellis inv xs)) b).pm
          trellis := buildTrellis inv xs
          result := code
          busy := false } ∧
      if strict = true ∧ (nodeAt (finalColumn (buildTrellis inv xs)) b).pm ≠ 0 then
        code = .noValidPath ∧ m = s.msg
      else code = .ok ∧ m = Memory.writeBlock s.msg 0 (decodedMessage (buildTrellis inv xs) b) := by
  obtain ⟨hnone, -⟩ | ⟨b, -, ⟨hs, hm, he⟩ | ⟨hok, he⟩⟩ := finishDecode_cases strict (buildTrellis inv xs) s
  · exact absurd hnone (selectFinal_buildTrellis_ne_none inv xs)
  · refine ⟨b, _, _, he, ?_⟩
    rw [if_pos ⟨hs, hm⟩]
    exact ⟨rfl, rfl⟩
  · refine ⟨b, _, _, he, ?_⟩
    rw [if_neg fun ⟨hs, hm⟩ => hok.elim (fun hf => by rw [hs] at hf; cases hf) hm]
    exact ⟨rfl, rfl⟩

/-- The metric of a final state fits the 16 bits of FMETRIC (R130). -/
theorem fmetricField_final {nmax : Nat} {inv strict : Bool} {len : Len} {xs : List Symbol}
    (hnmax : nmax ≤ 16384) (hl : (Instr.vitDec inv strict len).WellFormed nmax)
    (hxs : xs.length = 2 * len.toNat) (b : StateIx) :
    fmetricField (vitInfoWord b (nodeAt (finalColumn (buildTrellis inv xs)) b).pm) =
      (nodeAt (finalColumn (buildTrellis inv xs)) b).pm := by
  have hmax := len_le_of_lengthOk_vitDec hl
  have hpm := finalColumn_buildTrellis_pmAtMost inv xs b
  exact fmetricField_vitInfoWord b (by omega)

/-! ## A clean stream (R131) -/

theorem branchMetric_eq_zero_iff {e h : Bool × Bool} : branchMetric e h = 0 ↔ e = h := by
  revert e h; decide

/-- The hard bits of the encoder's output are the tap sums of its message. -/
theorem receivedPair_convolve (inv : Bool) {us : List Bool} {t : Nat} (ht : t < us.length) :
    receivedPair (convolve inv 0 us).1 t = (convOut1 us t, convOut2 inv us t) := by
  obtain ⟨h1, h2⟩ := convolve_symbols inv us ht
  simp only [receivedPair, hardAt, List.getD_eq_getElem?_getD, h1, h2, Option.getD_some, hard_soft]

/-- Messages of one length with the same output in every step have the same output. -/
theorem convolve_eq_of_receivedPair {inv : Bool} {us vs : List Bool} (hlen : us.length = vs.length)
    (h : ∀ t < us.length, (convOut1 us t, convOut2 inv us t) = (convOut1 vs t, convOut2 inv vs t)) :
    (convolve inv 0 us).1 = (convolve inv 0 vs).1 := by
  have hus := length_convolve inv 0 us
  have hvs := length_convolve inv 0 vs
  refine List.ext_getElem? fun k => ?_
  rcases Nat.lt_or_ge k (2 * us.length) with hk | hk
  · obtain ⟨h1, h2⟩ := Prod.mk.inj (h (k / 2) (by omega))
    obtain ⟨hu1, hu2⟩ := convolve_symbols inv us (t := k / 2) (by omega)
    obtain ⟨hv1, hv2⟩ := convolve_symbols inv vs (t := k / 2) (by omega)
    rcases Nat.mod_two_eq_zero_or_one k with hpar | hpar
    · rw [show k = 2 * (k / 2) by omega, hu1, hv1, h1]
    · rw [show k = 2 * (k / 2) + 1 by omega, hu2, hv2, h2]
  · rw [List.getElem?_eq_none (by omega), List.getElem?_eq_none (by omega)]

/-- The only message at distance 0 from an encoder's output is the one that was encoded (R116, R131). -/
theorem pathMetric_convolve_eq_zero_iff {inv : Bool} {us vs : List Bool} (hlen : vs.length = us.length) :
    pathMetric inv vs (convolve inv 0 us).1 = 0 ↔ vs = us := by
  rw [pathMetric_eq_sum, List.sum_eq_zero_iff]
  simp only [List.forall_mem_map, List.mem_range, branchMetric_eq_zero_iff]
  constructor
  · intro h
    refine convolve_injective inv 0 hlen (convolve_eq_of_receivedPair hlen fun t ht => ?_)
    rw [h t ht, receivedPair_convolve inv (hlen ▸ ht)]
  · rintro rfl t ht
    rw [receivedPair_convolve inv ht]

/-! ## The statements -/

/-- Settles O54: the node holds one of its two edges, and the lower state is relaxed first. -/
theorem predecessorTieKeepsTheLowerState : Obligations.PredecessorTieKeepsTheLowerState := by
  refine ⟨fun p n u => nextState_eq_iff, fun inv h col n => ?_⟩
  rw [← predecessor_true, ← predecessor_false]
  exact ⟨getLsbD_predecessor n false (i := 0) (by omega), getLsbD_predecessor n true (i := 0) (by omega),
    nextColumn_reach_iff inv h col n, nextColumn_keeps_false inv h col n, nextColumn_keeps_true inv h col n⟩

/-- Settles O55: the messages of `t` bits are the paths to column `t`. -/
theorem everyColumnHasAReachableState : Obligations.EveryColumnHasAReachableState := by
  constructor
  · intro inv xs t ht
    rw [length_buildTrellis] at ht ⊢
    simp only [nodeOf_buildTrellis inv (Nat.le_of_lt_succ ht)]
    refine ⟨⟨0, columnAt_reaches_zero inv xs t⟩, fun r u hnext hr => ?_,
      fun h6 r => columnAt_reaches_all inv xs h6 r,
      selectFinal_isSome (finalColumn_buildTrellis_reaches_zero inv xs)⟩
    rw [nodeOf_buildTrellis inv (Nat.le_of_lt_succ hnext)]
    exact nextColumn_reaches inv (receivedPair xs t) u hr
  · intro s t inv strict len ⟨_, hnmax, _⟩ hl he hcode
    obtain ⟨hbad, -⟩ | ⟨-, xs, hread, rfl⟩ := execVitDec_next he
    · rw [hl] at hbad; cases hbad
    · obtain ⟨hxs, -⟩ := Memory.readBlock_ok hread
      obtain ⟨b, m, code, hend, hends⟩ := finishDecode_eq inv strict xs s
      rw [hend] at hcode ⊢
      rw [fmetricField_final hnmax hl hxs]
      split at hends
      next hfail => exact hfail
      next => exact absurd (hends.1.symm.trans hcode) (by decide)

/-- Settles O56: each column adds at most 2, and FMETRIC is a metric of column N. -/
theorem pathMetricsAreBounded : Obligations.PathMetricsAreBounded := by
  constructor
  · intro inv xs t n hn
    rw [nodeOf_buildTrellis inv (le_half_of_reach hn)]
    exact columnAt_pmAtMost inv xs t n
  · intro s inv strict len xs ⟨_, hnmax, _⟩ hl hxs hsym
    have hmax := len_le_of_lengthOk_vitDec hl
    obtain ⟨b, -, hinfo, -⟩ := finishDecode_reports inv strict xs s
    have hpm := finalColumn_buildTrellis_pmAtMost inv xs b
    refine ⟨_, exec_vitDec hl hxs hsym, ?_, by omega, by omega⟩
    rw [hinfo, fmetricField_final hnmax hl hxs]
    omega

/-- Settles O57: a node holds an edge of its column, and the zero message is one of the paths. -/
theorem pathMetricsNeverDecrease : Obligations.PathMetricsNeverDecrease := by
  intro inv xs
  refine ⟨fun t n hn => ?_, fun t ht => ?_, ?_⟩
  · have hle := le_half_of_reach hn
    rw [nodeOf_buildTrellis inv hle] at hn ⊢
    obtain ⟨hreach, hnext, hpm⟩ := columnAt_holdsAnEdge inv xs t n hn
    dsimp only
    rw [nodeOf_buildTrellis inv (Nat.le_of_succ_le hle)]
    exact ⟨hnext, hreach, hpm, hpm ▸ Nat.le_add_right _ _⟩
  · rw [length_buildTrellis] at ht
    rw [nodeOf_buildTrellis inv (Nat.le_of_lt_succ ht)]
    exact columnAt_reaches_zero inv xs t
  · obtain ⟨b, hb⟩ := Option.ne_none_iff_exists'.1 (selectFinal_buildTrellis_ne_none inv xs)
    obtain ⟨-, hbeats⟩ := selectFinal_spec hb
    obtain ⟨hreach, hpm⟩ := columnAt_reachedWithin inv (List.replicate (xs.length / 2) false) xs
    rw [List.length_replicate, ← finalColumn_buildTrellis] at hreach hpm
    exact ⟨b, hb, (hbeats _ (BitVec.isLt _) hreach).1.trans hpm⟩

/-- Settles O52, by the ways VIT_DEC ends. -/
theorem vitDecCompletes : Obligations.VitDecCompletes := by
  intro s inv strict len xs ⟨_, hnmax, _⟩ hl hxs hsym
  obtain ⟨b, m, code, hend, hends⟩ := finishDecode_eq inv strict xs s
  refine ⟨m, _, code, (exec_vitDec hl hxs hsym).trans (congrArg _ hend), reserved_vitInfoWord _ _, ?_⟩
  rw [fmetricField_final hnmax hl hxs]
  split at hends
  next hfail => rwa [if_pos hfail]
  next hok =>
    obtain ⟨rfl, rfl⟩ := hends
    have hlen : (decodedMessage (buildTrellis inv xs) b).length = len.toNat := by
      rw [length_decodedMessage, hxs, Nat.mul_div_cancel_left _ (by omega)]
    rw [if_neg hok]
    refine ⟨rfl, _, hlen, Memory.holds_writeBlock s.msg _, fun k hk => ?_⟩
    rw [Memory.read_writeBlock, if_neg (by omega)]

/-- Settles O58: the decoder finds a message of distance 0, which is only the one encoded. -/
theorem cleanStreamDecodesToItsMessage : Obligations.CleanStreamDecodesToItsMessage := by
  intro s inv strict len us hwf hl hlen hmsg
  have hn : 0 < us.length := hlen ▸ len_pos_of_lengthOk_convEnc hl
  have hxs : (convolve inv 0 us).1.length = 2 * len.toNat := by rw [length_convolve, hlen]
  obtain ⟨t1, henc, hcfg, hsr, hsym⟩ : ∃ t1, exec (.convEnc inv len) s = .next t1 ∧ t1.cfg = s.cfg ∧
      t1.sr = regAfter us ∧ HoldsFromZero t1.sym (convolve inv 0 us).1 :=
    ⟨_, exec_convEnc hl hlen hmsg, rfl, rfl, Memory.holds_writeBlock s.sym _⟩
  rw [← hcfg] at hwf hl
  obtain ⟨t2, vs, hdec, hvs, hmetric, hleast, -, hstate, hmessage⟩ :=
    vitDecFindsALeastDistanceMessage t1 inv strict len _ hwf hl hxs hsym
  have hzero : fmetricField t2.vitInfo = 0 := by
    have hle := (hleast us hlen).1
    rwa [(pathMetric_convolve_eq_zero_iff rfl).2 rfl, Nat.le_zero] at hle
  obtain rfl := (pathMetric_convolve_eq_zero_iff (hvs.trans hlen.symm)).1 (hmetric.trans hzero)
  have hcode : t2.result = .ok := by
    obtain ⟨m, info, code, hdec', -, hends⟩ := vitDecCompletes t1 inv strict len _ hwf hl hxs hsym
    obtain rfl := Host.Outcome.next.inj (hdec.symm.trans hdec')
    rw [if_neg fun hfail => hfail.2 hzero] at hends
    exact hends.1
  refine ⟨t1, t2, henc, hdec, hcode, hmessage hcode, hzero, BitVec.eq_of_getLsbD_eq fun i hi => ?_⟩
  have hbit := (hstate (5 - i) (by omega)).trans (regBit_regAfter_last hn (by omega)).symm
  rwa [regBit, ← hsr, Nat.sub_sub_self (by omega)] at hbit

end Sys2Proof.Machine

/-! The statements about a host's accesses while a command is in flight (R154, R155). -/

namespace Sys2Proof.Machine

/-! ## The reserved bits of a buffer's word (R38 to R40) -/

theorem getLsbD_lowOnes (n : Nat) {j : Nat} (hj : j < 32) : (lowOnes n).getLsbD j = decide (j < n) := by
  rw [lowOnes, BitVec.getLsbD_ofNat, Nat.testBit_two_pow_sub_one, decide_eq_true hj, Bool.true_and]

/-- The mask of a buffer's word holds exactly the bits of the elements that the word maps. -/
theorem getLsbD_dataMask (c : Config) {off j : Nat} (h4 : off % 4 = 0) (hbuf : Claims.IsBufferOffset off)
    (hj : j < 32) : (dataMask c (targetAt off)).getLsbD j = Claims.isElementBit c.nmax off j := by
  obtain ⟨hlo, hhi⟩ | ⟨hlo, hhi⟩ | ⟨hlo, hhi⟩ := hbuf
  · obtain ⟨k, rfl⟩ : ∃ k, off = 0x010 + 4 * k := ⟨(off - 0x010) / 4, by omega⟩
    have hk : k < 3 := by omega
    rw [targetAt_frame hk, isElementBit_frame _ hk]
    obtain rfl | hk2 : k = 2 ∨ k < 2 := by omega
    · rw [dataMask, getLsbD_lowOnes _ hj, decide_eq_decide]
      omega
    · rw [dataMask, getLsbD_lowOnes _ hj, decide_eq_decide] <;> omega
  · obtain ⟨w, rfl⟩ : ∃ w, off = 0x1000 + 4 * w := ⟨(off - 0x1000) / 4, by omega⟩
    have hw : w < 512 := by omega
    rw [(targetAt_eq_msg h4).2 ⟨rfl, hw⟩, isElementBit_msg _ hw, dataMask, getLsbD_lowOnes _ hj,
      elementsIn, decide_eq_decide]
    omega
  · obtain ⟨w, rfl⟩ : ∃ w, off = 0x2000 + 4 * w := ⟨(off - 0x2000) / 4, by omega⟩
    have hw : w < 2048 := by omega
    rw [(targetAt_eq_sym h4).2 ⟨rfl, hw⟩, isElementBit_sym, dataMask, getLsbD_lowOnes _ hj,
      elementsIn, decide_eq_decide]
    omega

/-! ## Accesses to a buffer while a command is in flight (R154, R155) -/

section inFlight

variable {s : State} {off : Nat} {rest : List Input}

/-- A host write of a buffer's word while BUSY = 1 is a hazard. -/
theorem step_write_hazard {v : Word} (hc : s.cfg.wf) (h4 : off % 4 = 0) (hoff : off < windowSize)
    (hin : s.inputs = .write (s.cfg.base + off) 4 v :: rest)
    (hb : (s.busy && (targetAt off).isBuffer) = true) : step s = .fault (.hostHazard off) :=
  (step_of_write hin).trans ((hostWrite_at (s := { s with inputs := rest }) hc h4 hoff).trans
    (writeAccess_hazard hb))

/-- A host read of a buffer's word while BUSY = 1 answers with the next free value, masked. -/
theorem step_read_free (hc : s.cfg.wf) (h4 : off % 4 = 0) (hoff : off < windowSize)
    (hin : s.inputs = .read (s.cfg.base + off) 4 :: rest)
    (hb : (s.busy && (targetAt off).isBuffer) = true) :
    step s = .next (State.answerFree (dataMask s.cfg (targetAt off)) { s with inputs := rest }) :=
  (step_of_read hin).trans ((hostRead_at (s := { s with inputs := rest }) hc h4 hoff).trans
    (readAccess_free hb))

end inFlight

/-! ## The statements -/

/-- Settles O32: an offset is a buffer's, CMD's, or one whose writes are ignored. -/
theorem hostWritesWhileBusy : Obligations.HostWritesWhileBusy := by
  intro s off v rest hc hb h4 hoff hin
  refine ⟨fun hbuf => ?_, fun hcmd => ?_, fun hbuf hcmd => ?_⟩
  · exact step_write_hazard hc h4 hoff hin (by rw [hb, (isBuffer_targetAt h4).2 hbuf]; rfl)
  · subst hcmd
    exact cmdWriteWhileBusyOnlySetsOvr s v rest hc hb hin
  · exact step_write_ignored hc h4 hoff hin (mt targetAt_eq_cmd.1 hcmd)
      (Bool.eq_false_iff.2 (mt (isBuffer_targetAt h4).1 hbuf))

/-- Settles O33: the mask clears the reserved bits of a buffer's word, and the registers are no
buffers. -/
theorem hostReadsWhileBusy : Obligations.HostReadsWhileBusy := by
  intro s off rest hc hb h4 hin
  refine ⟨fun hbuf => ?_, ?_, ?_, ?_, ?_⟩
  · have hoff : off < windowSize := by
      unfold Claims.IsBufferOffset at hbuf
      unfold windowSize
      omega
    refine ⟨_, _, step_read_free hc h4 hoff hin (by rw [hb, (isBuffer_targetAt h4).2 hbuf]; rfl),
      fun j hj hres => ?_⟩
    rw [BitVec.getLsbD_and, getLsbD_dataMask s.cfg h4 hbuf hj, hres, Bool.and_false]
  all_goals
    rintro rfl
    exact step_read_ok hc h4 (by decide) hin (Bool.and_false _) rfl

end Sys2Proof.Machine
